-- ==== Sys2Proof/Word.lean ====
section
/-! DEFINITION. The widths of the machine's values (`00_scope.md` R5, R7): a byte is 8 bits, a word 16 bits, all unsigned.
Addition on a `BitVec` is the wrap modulo 256 or 65536 of R7; no value of this hardware is signed. -/

namespace Sys2Proof

/-- R5: a byte, 8 bits unsigned. -/
abbrev Byte := BitVec 8

/-- R5: a word, 16 bits unsigned. -/
abbrev Word := BitVec 16

/-- R20: the index of a general register, a nibble 0..15. -/
abbrev RegIdx := Fin 16

/-- R168: a logical key, 0..15. -/
abbrev Key := Fin 16

end Sys2Proof
end

