-- ==== Sys2Proof/Syntax.lean ====
section
/-! DEFINITION. The 34 instructions of the opcode map (`30_encoding.md` R85), one constructor per row, in the map's order.
Operands are those of the row's format (R82): register indexes `x`, `y`, a byte `kk`, a 12-bit address `addr` already
widened to a word (R83: `zext_16(nnn)`), a sprite height `n`. -/

namespace Sys2Proof

/-- R85: the instruction set. Each constructor names its pattern. -/
inductive Instr where
  /-- `00E0` CLS, clear the screen (R160). -/
  | cls
  /-- `00EE` RET, return (R101). -/
  | ret
  /-- `1nnn` JP addr, jump (R102). -/
  | jp (addr : Word)
  /-- `2nnn` CALL addr, call (R103). -/
  | call (addr : Word)
  /-- `3xkk` SE Vx, byte, skip if `Vx = kk` (R105). -/
  | seImm (x : RegIdx) (kk : Byte)
  /-- `4xkk` SNE Vx, byte, skip if `Vx != kk` (R106). -/
  | sneImm (x : RegIdx) (kk : Byte)
  /-- `5xy0` SE Vx, Vy, skip if `Vx = Vy` (R107). -/
  | seReg (x y : RegIdx)
  /-- `6xkk` LD Vx, byte, load immediate (R120). -/
  | ldImm (x : RegIdx) (kk : Byte)
  /-- `7xkk` ADD Vx, byte, add immediate, no flag (R121). -/
  | addImm (x : RegIdx) (kk : Byte)
  /-- `8xy0` LD Vx, Vy, copy (R122). -/
  | ldReg (x y : RegIdx)
  /-- `8xy1` OR Vx, Vy (R123). -/
  | orReg (x y : RegIdx)
  /-- `8xy2` AND Vx, Vy (R124). -/
  | andReg (x y : RegIdx)
  /-- `8xy3` XOR Vx, Vy (R125). -/
  | xorReg (x y : RegIdx)
  /-- `8xy4` ADD Vx, Vy, add with carry out (R126). -/
  | addReg (x y : RegIdx)
  /-- `8xy5` SUB Vx, Vy, `Vx - Vy` (R127). -/
  | sub (x y : RegIdx)
  /-- `8xy6` SHR Vx, shift right by one; `y` is decoded and not used (R128, R87). -/
  | shr (x y : RegIdx)
  /-- `8xy7` SUBN Vx, Vy, `Vy - Vx` (R129). -/
  | subn (x y : RegIdx)
  /-- `8xyE` SHL Vx, shift left by one; `y` is decoded and not used (R130, R87). -/
  | shl (x y : RegIdx)
  /-- `9xy0` SNE Vx, Vy, skip if `Vx != Vy` (R108). -/
  | sneReg (x y : RegIdx)
  /-- `Annn` LD I, addr (R140). -/
  | ldI (addr : Word)
  /-- `Bnnn` JP V0, addr, jump indexed by `V0` (R104). -/
  | jpV0 (addr : Word)
  /-- `Cxkk` RND Vx, byte, random AND immediate (R131). -/
  | rnd (x : RegIdx) (kk : Byte)
  /-- `Dxyn` DRW Vx, Vy, nibble, draw a sprite of `n` rows (R161). -/
  | drw (x y : RegIdx) (n : Nat)
  /-- `Ex9E` SKP Vx, skip if key pressed (R165). -/
  | skp (x : RegIdx)
  /-- `ExA1` SKNP Vx, skip if key not pressed (R166). -/
  | sknp (x : RegIdx)
  /-- `Fx07` LD Vx, DT, read the delay timer (R180). -/
  | ldVxDt (x : RegIdx)
  /-- `Fx0A` LD Vx, K, wait for a key press (R167). -/
  | ldVxK (x : RegIdx)
  /-- `Fx15` LD DT, Vx, write the delay timer (R181). -/
  | ldDtVx (x : RegIdx)
  /-- `Fx18` LD ST, Vx, write the sound timer (R182). -/
  | ldStVx (x : RegIdx)
  /-- `Fx1E` ADD I, Vx (R141). -/
  | addI (x : RegIdx)
  /-- `Fx29` LD F, Vx, address of the font sprite (R142). -/
  | ldF (x : RegIdx)
  /-- `Fx33` LD B, Vx, store the decimal digits (R143). -/
  | ldB (x : RegIdx)
  /-- `Fx55` LD [I], Vx, store `V0..Vx` (R144). -/
  | ldMemVx (x : RegIdx)
  /-- `Fx65` LD Vx, [I], load `V0..Vx` (R145). -/
  | ldVxMem (x : RegIdx)
  deriving DecidableEq, Repr

end Sys2Proof
end

