-- ==== Sys2Proof/WellFormed.lean ====
section
/-! DEFINITION. Which terms of `Instr` are instructions of the hardware. Register indexes and bytes are exact by their
types; what is left to check is that an address fits the 12 bits of `nnn` and a sprite height the 4 bits of `n`
(`30_encoding.md` R81, R83). -/

namespace Sys2Proof

/-- R83: `nnn` is zero-extended to a word, 0..0xFFF. -/
def addrFits (addr : Word) : Bool := decide (addr.toNat < 0x1000)

/-- R83: `n` of `Dxyn` is an unsigned count 0..15. -/
def heightFits (n : Nat) : Bool := decide (n < 16)

/-- The operand checks of each instruction (R82, R83). -/
def Instr.wf : Instr → Bool
  | .cls => true
  | .ret => true
  | .jp addr => addrFits addr
  | .call addr => addrFits addr
  | .seImm _ _ => true
  | .sneImm _ _ => true
  | .seReg _ _ => true
  | .ldImm _ _ => true
  | .addImm _ _ => true
  | .ldReg _ _ => true
  | .orReg _ _ => true
  | .andReg _ _ => true
  | .xorReg _ _ => true
  | .addReg _ _ => true
  | .sub _ _ => true
  | .shr _ _ => true
  | .subn _ _ => true
  | .shl _ _ => true
  | .sneReg _ _ => true
  | .ldI addr => addrFits addr
  | .jpV0 addr => addrFits addr
  | .rnd _ _ => true
  | .drw _ _ n => heightFits n
  | .skp _ => true
  | .sknp _ => true
  | .ldVxDt _ => true
  | .ldVxK _ => true
  | .ldDtVx _ => true
  | .ldStVx _ => true
  | .addI _ => true
  | .ldF _ => true
  | .ldB _ => true
  | .ldMemVx _ => true
  | .ldVxMem _ => true

end Sys2Proof
end

