-- ==== Sys2Proof/Decode.lean ====
section
/-! DEFINITION. Decoding and encoding (`30_encoding.md`). `decode` is the algorithm of R84; `opcodeMap` is the table of R85,
written separately, so that the two can be held against each other; `encode` writes the canonical word of R85. -/

namespace Sys2Proof

/-! ### Byte order and fields -/

/-- R5: `fuse(m, l) = m * 256 + l`, high byte first. -/
def fuse (m l : Byte) : Word := BitVec.ofNat 16 (m.toNat * 256 + l.toNat)

/-- R5: `split(w) = (w[15:8], w[7:0])`. -/
def split (w : Word) : Byte × Byte := (w.extractLsb' 8 8, w.extractLsb' 0 8)

/-- R81: `n1 = op[15:12]`. -/
def fieldN1 (op : Word) : BitVec 4 := op.extractLsb' 12 4

/-- R81: `x = op[11:8]`. -/
def fieldX (op : Word) : RegIdx := (op.extractLsb' 8 4).toFin

/-- R81: `y = op[7:4]`. -/
def fieldY (op : Word) : RegIdx := (op.extractLsb' 4 4).toFin

/-- R81: `n = op[3:0]`. -/
def fieldN (op : Word) : BitVec 4 := op.extractLsb' 0 4

/-- R81: `kk = op[7:0]`. -/
def fieldKK (op : Word) : Byte := op.extractLsb' 0 8

/-- R81, R83: `nnn = op[11:0]`, zero-extended to a word. -/
def fieldNNN (op : Word) : Word := (op.extractLsb' 0 12).setWidth 16

/-! ### Decoding -/

/-- Why a word or a byte sequence is no instruction. -/
inductive Reject where
  /-- R84, R86: lookup failure, carrying the raw word. -/
  | unrecognizedOpcode (op : Word)
  /-- R80: an opcode is two bytes; fewer were given. -/
  | truncated
  deriving DecidableEq, Repr

/-- R84 class 2, `n1 = 0`: the key is the low byte. -/
def decodeClass0 (op : Word) : Except Reject Instr :=
  if fieldKK op = 0xE0 then .ok .cls
  else if fieldKK op = 0xEE then .ok .ret
  else .error (.unrecognizedOpcode op)

/-- R84 class 3, `n1 = 8`: the key is the low nibble. -/
def decodeClass8 (op : Word) : Except Reject Instr :=
  if fieldN op = 0x0 then .ok (.ldReg (fieldX op) (fieldY op))
  else if fieldN op = 0x1 then .ok (.orReg (fieldX op) (fieldY op))
  else if fieldN op = 0x2 then .ok (.andReg (fieldX op) (fieldY op))
  else if fieldN op = 0x3 then .ok (.xorReg (fieldX op) (fieldY op))
  else if fieldN op = 0x4 then .ok (.addReg (fieldX op) (fieldY op))
  else if fieldN op = 0x5 then .ok (.sub (fieldX op) (fieldY op))
  else if fieldN op = 0x6 then .ok (.shr (fieldX op) (fieldY op))
  else if fieldN op = 0x7 then .ok (.subn (fieldX op) (fieldY op))
  else if fieldN op = 0xE then .ok (.shl (fieldX op) (fieldY op))
  else .error (.unrecognizedOpcode op)

/-- R84 class 2, `n1 = E`: the key is the low byte. -/
def decodeClassE (op : Word) : Except Reject Instr :=
  if fieldKK op = 0x9E then .ok (.skp (fieldX op))
  else if fieldKK op = 0xA1 then .ok (.sknp (fieldX op))
  else .error (.unrecognizedOpcode op)

/-- R84 class 2, `n1 = F`: the key is the low byte. -/
def decodeClassF (op : Word) : Except Reject Instr :=
  if fieldKK op = 0x07 then .ok (.ldVxDt (fieldX op))
  else if fieldKK op = 0x0A then .ok (.ldVxK (fieldX op))
  else if fieldKK op = 0x15 then .ok (.ldDtVx (fieldX op))
  else if fieldKK op = 0x18 then .ok (.ldStVx (fieldX op))
  else if fieldKK op = 0x1E then .ok (.addI (fieldX op))
  else if fieldKK op = 0x29 then .ok (.ldF (fieldX op))
  else if fieldKK op = 0x33 then .ok (.ldB (fieldX op))
  else if fieldKK op = 0x55 then .ok (.ldMemVx (fieldX op))
  else if fieldKK op = 0x65 then .ok (.ldVxMem (fieldX op))
  else .error (.unrecognizedOpcode op)

/-- R84: the decoding algorithm. Class 1 is selected by the high nibble alone. A high nibble is below 16, so the last arm
is `n1 = F`. -/
def decode (op : Word) : Except Reject Instr :=
  match (fieldN1 op).toNat with
  | 0x0 => decodeClass0 op
  | 0x1 => .ok (.jp (fieldNNN op))
  | 0x2 => .ok (.call (fieldNNN op))
  | 0x3 => .ok (.seImm (fieldX op) (fieldKK op))
  | 0x4 => .ok (.sneImm (fieldX op) (fieldKK op))
  | 0x5 => .ok (.seReg (fieldX op) (fieldY op))
  | 0x6 => .ok (.ldImm (fieldX op) (fieldKK op))
  | 0x7 => .ok (.addImm (fieldX op) (fieldKK op))
  | 0x8 => decodeClass8 op
  | 0x9 => .ok (.sneReg (fieldX op) (fieldY op))
  | 0xA => .ok (.ldI (fieldNNN op))
  | 0xB => .ok (.jpV0 (fieldNNN op))
  | 0xC => .ok (.rnd (fieldX op) (fieldKK op))
  | 0xD => .ok (.drw (fieldX op) (fieldY op) (fieldN op).toNat)
  | 0xE => decodeClassE op
  | _ => decodeClassF op

/-- R80: one opcode is read big-endian from two bytes; what follows them is left over. -/
def decodeBytes : List Byte → Except Reject (Instr × List Byte)
  | m :: l :: rest =>
    match decode (fuse m l) with
    | .ok i => .ok (i, rest)
    | .error r => .error r
  | _ => .error .truncated

/-- The instruction of an opcode-table row's bits: bit 0 is the least significant bit of the word, bits from `nbits` on
are 0, and the word lies in memory high byte first (R61, R80). -/
def decodeTableWord (nbits w : Nat) : Option Instr :=
  let bytes := split (BitVec.ofNat 16 (w % 2 ^ nbits))
  match decodeBytes [bytes.1, bytes.2] with
  | .ok (i, _) => some i
  | .error _ => none

/-! ### The opcode map -/

/-- A row of R85: `op` is selected iff `op & mask = pattern`; `build` reads the operands of the row's format (R82). -/
structure OpcodeRow where
  pattern : Word
  mask : Word
  build : Word → Instr

/-- R85, rows 1 to 9 (high nibbles 0 to 7). -/
def opcodeMapLow : List OpcodeRow :=
  [ ⟨0x00E0, 0xF0FF, fun _ => .cls⟩,
    ⟨0x00EE, 0xF0FF, fun _ => .ret⟩,
    ⟨0x1000, 0xF000, fun op => .jp (fieldNNN op)⟩,
    ⟨0x2000, 0xF000, fun op => .call (fieldNNN op)⟩,
    ⟨0x3000, 0xF000, fun op => .seImm (fieldX op) (fieldKK op)⟩,
    ⟨0x4000, 0xF000, fun op => .sneImm (fieldX op) (fieldKK op)⟩,
    ⟨0x5000, 0xF000, fun op => .seReg (fieldX op) (fieldY op)⟩,
    ⟨0x6000, 0xF000, fun op => .ldImm (fieldX op) (fieldKK op)⟩,
    ⟨0x7000, 0xF000, fun op => .addImm (fieldX op) (fieldKK op)⟩ ]

/-- R85, rows 10 to 18 (high nibble 8). -/
def opcodeMapEight : List OpcodeRow :=
  [ ⟨0x8000, 0xF00F, fun op => .ldReg (fieldX op) (fieldY op)⟩,
    ⟨0x8001, 0xF00F, fun op => .orReg (fieldX op) (fieldY op)⟩,
    ⟨0x8002, 0xF00F, fun op => .andReg (fieldX op) (fieldY op)⟩,
    ⟨0x8003, 0xF00F, fun op => .xorReg (fieldX op) (fieldY op)⟩,
    ⟨0x8004, 0xF00F, fun op => .addReg (fieldX op) (fieldY op)⟩,
    ⟨0x8005, 0xF00F, fun op => .sub (fieldX op) (fieldY op)⟩,
    ⟨0x8006, 0xF00F, fun op => .shr (fieldX op) (fieldY op)⟩,
    ⟨0x8007, 0xF00F, fun op => .subn (fieldX op) (fieldY op)⟩,
    ⟨0x800E, 0xF00F, fun op => .shl (fieldX op) (fieldY op)⟩ ]

/-- R85, rows 19 to 25 (high nibbles 9 to E). -/
def opcodeMapHigh : List OpcodeRow :=
  [ ⟨0x9000, 0xF000, fun op => .sneReg (fieldX op) (fieldY op)⟩,
    ⟨0xA000, 0xF000, fun op => .ldI (fieldNNN op)⟩,
    ⟨0xB000, 0xF000, fun op => .jpV0 (fieldNNN op)⟩,
    ⟨0xC000, 0xF000, fun op => .rnd (fieldX op) (fieldKK op)⟩,
    ⟨0xD000, 0xF000, fun op => .drw (fieldX op) (fieldY op) (fieldN op).toNat⟩,
    ⟨0xE09E, 0xF0FF, fun op => .skp (fieldX op)⟩,
    ⟨0xE0A1, 0xF0FF, fun op => .sknp (fieldX op)⟩ ]

/-- R85, rows 26 to 34 (high nibble F). -/
def opcodeMapF : List OpcodeRow :=
  [ ⟨0xF007, 0xF0FF, fun op => .ldVxDt (fieldX op)⟩,
    ⟨0xF00A, 0xF0FF, fun op => .ldVxK (fieldX op)⟩,
    ⟨0xF015, 0xF0FF, fun op => .ldDtVx (fieldX op)⟩,
    ⟨0xF018, 0xF0FF, fun op => .ldStVx (fieldX op)⟩,
    ⟨0xF01E, 0xF0FF, fun op => .addI (fieldX op)⟩,
    ⟨0xF029, 0xF0FF, fun op => .ldF (fieldX op)⟩,
    ⟨0xF033, 0xF0FF, fun op => .ldB (fieldX op)⟩,
    ⟨0xF055, 0xF0FF, fun op => .ldMemVx (fieldX op)⟩,
    ⟨0xF065, 0xF0FF, fun op => .ldVxMem (fieldX op)⟩ ]

/-- R85: the opcode map, 34 rows. -/
def opcodeMap : List OpcodeRow := opcodeMapLow ++ opcodeMapEight ++ opcodeMapHigh ++ opcodeMapF

/-! ### Encoding -/

/-- R82 format `NNN`. -/
def wordNNN (n1 : Nat) (addr : Word) : Word := BitVec.ofNat 16 (n1 * 0x1000 + addr.toNat % 0x1000)

/-- R82 formats `XKK` and `X`. -/
def wordXKK (n1 : Nat) (x : RegIdx) (kk : Byte) : Word := BitVec.ofNat 16 (n1 * 0x1000 + x.val * 0x100 + kk.toNat)

/-- R82 formats `XY` and `XYN`. -/
def wordXYN (n1 : Nat) (x y : RegIdx) (n : Nat) : Word :=
  BitVec.ofNat 16 (n1 * 0x1000 + x.val * 0x100 + y.val * 0x10 + n % 0x10)

/-- R85: the canonical word of an instruction; bits the dispatch key ignores (R87) are 0. -/
def encode : Instr → Word
  | .cls => 0x00E0
  | .ret => 0x00EE
  | .jp addr => wordNNN 0x1 addr
  | .call addr => wordNNN 0x2 addr
  | .seImm x kk => wordXKK 0x3 x kk
  | .sneImm x kk => wordXKK 0x4 x kk
  | .seReg x y => wordXYN 0x5 x y 0x0
  | .ldImm x kk => wordXKK 0x6 x kk
  | .addImm x kk => wordXKK 0x7 x kk
  | .ldReg x y => wordXYN 0x8 x y 0x0
  | .orReg x y => wordXYN 0x8 x y 0x1
  | .andReg x y => wordXYN 0x8 x y 0x2
  | .xorReg x y => wordXYN 0x8 x y 0x3
  | .addReg x y => wordXYN 0x8 x y 0x4
  | .sub x y => wordXYN 0x8 x y 0x5
  | .shr x y => wordXYN 0x8 x y 0x6
  | .subn x y => wordXYN 0x8 x y 0x7
  | .shl x y => wordXYN 0x8 x y 0xE
  | .sneReg x y => wordXYN 0x9 x y 0x0
  | .ldI addr => wordNNN 0xA addr
  | .jpV0 addr => wordNNN 0xB addr
  | .rnd x kk => wordXKK 0xC x kk
  | .drw x y n => wordXYN 0xD x y n
  | .skp x => wordXKK 0xE x 0x9E
  | .sknp x => wordXKK 0xE x 0xA1
  | .ldVxDt x => wordXKK 0xF x 0x07
  | .ldVxK x => wordXKK 0xF x 0x0A
  | .ldDtVx x => wordXKK 0xF x 0x15
  | .ldStVx x => wordXKK 0xF x 0x18
  | .addI x => wordXKK 0xF x 0x1E
  | .ldF x => wordXKK 0xF x 0x29
  | .ldB x => wordXKK 0xF x 0x33
  | .ldMemVx x => wordXKK 0xF x 0x55
  | .ldVxMem x => wordXKK 0xF x 0x65

/-- R61, R80: the two bytes of an instruction in memory order, high byte first. -/
def encodeBytes (i : Instr) : List Byte := [(split (encode i)).1, (split (encode i)).2]

end Sys2Proof
end

