-- ==== Sys2Proof/Config.lean ====
section
/-! DEFINITION. What is fixed for a machine (`00_scope.md` R4), the reset values the spec makes parameters (R4, R37), and
what the environment presents to one loop iteration (R34, R235) with its free values. -/

namespace Sys2Proof

/-! ### Static inputs (R4, R235 `cfg_low`, `cfg_ipt`)

The fixed sizes of R4 stand as numerals where they are used: `MEM_SIZE` 0x1000, `SPRITE_BEGIN` 0x50, `STACK_DEPTH` 16,
`SCREEN_W` 64, `SCREEN_H` 32, `FB_BYTES` 256. `TICK_PERIOD` is used by no rule. -/

/-- R4 `FONT`: 80 bytes. -/
abbrev Font := Vector Byte 80

/-- R4 `LOW`: the two legal low bounds. -/
inductive LowBound where
  /-- `0x200`, "normally". -/
  | normal
  /-- `0x600`, the alternate loading convention. -/
  | alternate
  deriving DecidableEq, Repr

/-- R4: the address of a low bound. -/
def LowBound.addr : LowBound → Nat
  | .normal => 0x200
  | .alternate => 0x600

/-- R4 `ACC_LOW`: the lower bound checked on every access the program makes is `LOW` or 0. -/
inductive AccBound where
  /-- `ACC_LOW = LOW`, the value of R4. -/
  | low
  /-- `ACC_LOW = 0`, the alternative R4 names. -/
  | zero
  deriving DecidableEq, Repr

/-- R4: the parameters a step of the machine reads. -/
structure Config where
  /-- `LOW`. -/
  low : LowBound
  /-- `ACC_LOW`. -/
  accBound : AccBound
  /-- `IPT`, an integer at least 1. -/
  ipt : Nat
  /-- `FONT`. -/
  font : Font
  deriving DecidableEq, Repr

/-- R52, digits 0 to 3 of the conventional font. PRESUMED (the spec marks the byte values as general knowledge). -/
def fontDigits0 : List Byte :=
  [0xF0, 0x90, 0x90, 0x90, 0xF0] ++ [0x20, 0x60, 0x20, 0x20, 0x70] ++ [0xF0, 0x10, 0xF0, 0x80, 0xF0] ++
    [0xF0, 0x10, 0xF0, 0x10, 0xF0]

/-- R52, digits 4 to 7. -/
def fontDigits4 : List Byte :=
  [0x90, 0x90, 0xF0, 0x10, 0x10] ++ [0xF0, 0x80, 0xF0, 0x10, 0xF0] ++ [0xF0, 0x80, 0xF0, 0x90, 0xF0] ++
    [0xF0, 0x10, 0x20, 0x40, 0x40]

/-- R52, digits 8 to B. -/
def fontDigits8 : List Byte :=
  [0xF0, 0x90, 0xF0, 0x90, 0xF0] ++ [0xF0, 0x90, 0xF0, 0x10, 0xF0] ++ [0xF0, 0x90, 0xF0, 0x90, 0x90] ++
    [0xE0, 0x90, 0xE0, 0x90, 0xE0]

/-- R52, digits C to F. -/
def fontDigitsC : List Byte :=
  [0xF0, 0x80, 0x80, 0x80, 0xF0] ++ [0xE0, 0x90, 0x90, 0x90, 0xE0] ++ [0xF0, 0x80, 0xF0, 0x80, 0xF0] ++
    [0xF0, 0x80, 0xF0, 0x80, 0x80]

/-- R52: the default of `FONT`. -/
def conventionalFont : Font :=
  ⟨(fontDigits0 ++ fontDigits4 ++ fontDigits8 ++ fontDigitsC).toArray, rfl⟩

/-- R4, column "value here": `LOW = 0x200`, `ACC_LOW = LOW`, `IPT = 7`, the font of R52. -/
def Config.standard : Config := { low := .normal, accBound := .low, ipt := 7, font := conventionalFont }

/-! ### Reset values the source does not give (R4 `RESET_V` .. `RESET_FB`, R37) -/

/-- R4: the reset values that are parameters. -/
structure ResetValues where
  /-- `RESET_V`, of every general register. -/
  v : Byte
  /-- `RESET_I`. -/
  i : Word
  /-- `RESET_DT`. -/
  dt : Byte
  /-- `RESET_ST`. -/
  st : Byte
  /-- `RESET_FB`. -/
  fb : Vector Byte 256
  deriving DecidableEq, Repr

/-- R4, column "value here": 0, 0, 0, 0, all zero. -/
def ResetValues.zero : ResetValues := { v := 0, i := 0, dt := 0, st := 0, fb := Vector.replicate 256 0 }

/-! ### What the environment presents to one loop iteration (R34, R235) -/

/-- The core's inputs, sampled once for each loop iteration. -/
structure Inputs where
  /-- R196: a `TickBoundary` has occurred since the last iteration. -/
  tick : Bool
  /-- R191: `quit` is raised. -/
  quit : Bool
  /-- R168: `keys[15:0]`, bit `k` set when key `k` is pressed. -/
  keys : BitVec 16
  /-- R195: a key-press event is available, with its key. -/
  keyEvent : Option Key
  /-- R131: the byte the random source gives if one is drawn. -/
  rnd : Byte
  deriving DecidableEq, Repr, Inhabited

/-- The inputs of the `n`-th loop iteration when the state holds no script for it: a free value, so nothing can be proved
of it (R131, R168, R191, R195, R196; log entry 3). -/
opaque Config.freeInputs : Nat → Inputs

/-- The environment of the core (R9): the inputs now on the ports, a script of the inputs of the iterations to come
(possibly empty: then they are free), and the number of iterations already served. -/
structure Env where
  /-- The inputs of the current iteration. -/
  inputs : Inputs
  /-- The inputs of the next iterations, first one first. -/
  script : List Inputs
  /-- How many times the inputs were sampled; it selects the next free value. -/
  samples : Nat
  deriving DecidableEq, Repr

/-- No boundary, no quit, no key down, no event, a zero byte: what the ports show before the first sample (log entry 4). -/
def Inputs.idle : Inputs := { tick := false, quit := false, keys := 0, keyEvent := none, rnd := 0 }

/-- The environment at reset: idle ports, no script. -/
def Env.fresh : Env := { inputs := .idle, script := [], samples := 0 }

/-- The inputs the next iteration will see. -/
def Env.upcoming (e : Env) : Inputs :=
  match e.script with
  | [] => Config.freeInputs e.samples
  | first :: _ => first

/-- Take the next sample. -/
def Env.advance (e : Env) : Env :=
  { inputs := e.upcoming, script := e.script.tail, samples := e.samples + 1 }

end Sys2Proof
end

