-- ==== Sys2Proof/Machine/State.lean ====
section
/-! DEFINITION. The state of the core (`10_state.md` R20 to R33, R36), the reasons a step can stop, and reset (R37, R260).
Plain data: registers and buffers of a fixed number of entries are vectors, memory is a list of cells. -/

namespace Sys2Proof.Machine

/-- R220: the six faults, in the order of their codes 1 to 6. -/
inductive FaultKind where
  /-- Code 1 (R221). -/
  | outOfRange
  /-- Code 2 (R222). -/
  | stackOverflow
  /-- Code 3 (R223). -/
  | stackUnderflow
  /-- Code 4 (R224). -/
  | unrecognizedOpcode
  /-- Code 5 (R225). -/
  | invalidKey
  /-- Code 6 (R226). -/
  | invalidSpriteDigit
  deriving DecidableEq, Repr

/-- R32, R230: what `raise F(info)` records. -/
structure FaultRecord where
  kind : FaultKind
  info : Word
  deriving DecidableEq, Repr

/-- R28: the run state. -/
inductive RunState where
  | running
  /-- Entered by `Fx0A`, left when a key arrives. -/
  | awaitKey (x : RegIdx)
  /-- The quit signal was seen. -/
  | halted
  /-- A fault was raised. -/
  | faulted
  deriving DecidableEq, Repr

/-- R27: the cells of `MEM` that differ from what an unlisted address holds, in rising order of address. -/
abbrev Memory := List Host.Cell

/-- Everything the spec gives the machine (R36), the static inputs (R235 `cfg_low`, `cfg_ipt`; no step changes them) and
the environment the core samples (R34). -/
structure State where
  /-- R4, R235: the static parameters. -/
  cfg : Config
  /-- R20: `V0..VF`. -/
  v : Vector Byte 16
  /-- R22: `I`. -/
  i : Word
  /-- R23: `PC`. -/
  pc : Word
  /-- R24: `DT`. -/
  dt : Byte
  /-- R25: `ST`. -/
  st : Byte
  /-- R26: `S[0..15]`. -/
  stack : Vector Word 16
  /-- R26: `SP`, 0..16. -/
  sp : Fin 17
  /-- R27: `MEM[0..4095]`. -/
  mem : Memory
  /-- R28: `run`. -/
  run : RunState
  /-- R29: `icount`. -/
  icount : Nat
  /-- R30: `tick_due`. -/
  tickDue : Bool
  /-- R31: `audio_on`. -/
  audioOn : Bool
  /-- R32: `fault_kind`, none when no fault. -/
  faultKind : Option FaultKind
  /-- R32: `fault_info`. -/
  faultInfo : Word
  /-- R33: `FB[0..255]`, the external port's display buffer. -/
  fb : Vector Byte 256
  /-- R9, R34: the environment's side of the ports (the model's own field). -/
  env : Env
  deriving DecidableEq, Repr

/-- Why the machine stops with a fault. No instruction does: a fault of R220 is a next state (R230). -/
inductive Fault where
  /-- R59, D23: raised by the host's `loadProgram` when the image is longer than the memory above `LOW`; the core does
  not run. Safe: the spec says so. -/
  | imageOutOfRange
  deriving DecidableEq, Repr

/-- Why a step has no meaning. -/
inductive Refusal where
  /-- An instruction that has no meaning in this model yet; raised by an arm of `exec`. Safe. -/
  | notModelled (mnemonic : String)
  /-- R4, U21: `IPT` must be at least 1; raised by every iteration of a machine with `IPT = 0`. Safe. -/
  | budgetBelowOne
  deriving DecidableEq, Repr

/-- R37, R260: the machine right after reset, for any parameters: memory zero but for the font (nothing listed), the
stack empty, `PC = LOW`, the other registers at the given reset values. -/
def State.resetWith (c : Config) (r : ResetValues) : State :=
  { cfg := c
    v := Vector.replicate 16 r.v
    i := r.i
    pc := BitVec.ofNat 16 c.low.addr
    dt := r.dt
    st := r.st
    stack := Vector.replicate 16 0
    sp := 0
    mem := []
    run := .running
    icount := 0
    tickDue := false
    audioOn := r.st != 0
    faultKind := none
    faultInfo := 0
    fb := r.fb
    env := .fresh }

/-- R37, R260: the machine right after reset, with the values of R4. -/
def State.reset : State := State.resetWith .standard .zero

end Sys2Proof.Machine
end

