-- ==== Sys2Proof/Machine/Operands.lean ====
section
/-! DEFINITION. Operand forms: reading and writing a general register (R20), widening (R5), the address arithmetic of `Bnnn`
and `Fx1E` (R104, R141), the font address (R142), decimal digits (R143), sprite coordinates (R161), and the pixel a
byte of the display holds (R33). -/

namespace Sys2Proof.Machine

/-- R21: the index of `VF`. -/
abbrev flagReg : RegIdx := 15

/-- R20: `V[x]`. -/
def State.getV (s : State) (x : RegIdx) : Byte := s.v[x.val]

/-- R20: `V[x] <- b`. -/
def State.setV (s : State) (x : RegIdx) (b : Byte) : State := { s with v := s.v.set x.val b }

/-- R5: `zext_16` of a byte. -/
def zext16 (b : Byte) : Word := b.setWidth 16

/-- R104, R141: a byte is zero-extended and added to a word modulo 65536, with no flag. -/
def addByteToWord (w : Word) (b : Byte) : Word := BitVec.ofNat 16 ((w.toNat + b.toNat) % 65536)

/-- R23, R194: `(PC + 2) mod 65536`. -/
def pcPlusTwo (pc : Word) : Word := BitVec.ofNat 16 ((pc.toNat + 2) % 65536)

/-- R142, R165, R166: a digit or key operand is valid iff the whole byte is at most `0xF`. -/
def isNibble (b : Byte) : Bool := decide (b.toNat ≤ 0xF)

/-- R142: `SPRITE_BEGIN + 5 * d`. -/
def fontAddress (d : Byte) : Word := BitVec.ofNat 16 (0x50 + 5 * d.toNat)

/-- R143: the digits `[h, t, o]` of a byte, hundreds first. -/
def bcdDigits (b : Byte) : List Byte :=
  [BitVec.ofNat 8 (b.toNat / 100), BitVec.ofNat 8 (b.toNat / 10 % 10), BitVec.ofNat 8 (b.toNat % 10)]

/-- R144: `[V[0], ..., V[x]]`. -/
def State.lowRegs (s : State) (x : RegIdx) : List Byte :=
  (List.range (x.val + 1)).map fun j => s.getV (Fin.ofNat 16 j)

/-- R145: `V[j] <- b[0], V[j + 1] <- b[1], ...`. -/
def State.loadRegs (s : State) : Nat → List Byte → State
  | _, [] => s
  | j, b :: bs => State.loadRegs (s.setV (Fin.ofNat 16 j) b) (j + 1) bs

/-- R161: `xs = V[x] mod 64`. -/
def spriteColumn (b : Byte) : Fin 64 := Fin.ofNat 64 b.toNat

/-- R161: `ys = V[y] mod 32`. -/
def spriteRow (b : Byte) : Fin 32 := Fin.ofNat 32 b.toNat

/-- R33: the pixel of a display buffer or overlay at a column and row: byte `row * 8 + col / 8`, bit 7 leftmost. -/
def pixel (fb : Vector Byte 256) (col : Fin 64) (row : Fin 32) : Bool :=
  (fb[row.val * 8 + col.val / 8]'(by omega)).getLsbD (7 - col.val % 8)

end Sys2Proof.Machine
end

