-- ==== Sys2Proof/Machine/Flags.lean ====
section
/-! DEFINITION. The values `VF` receives (R21): carry, NOT borrow, the bit shifted out, collision. Each computation reads
values from before the instruction; R132 fixes the order of the writes. -/

namespace Sys2Proof.Machine

/-- R21: the flag is 0 or 1 and nothing else. -/
def flagByte (f : Bool) : Byte := if f then 1 else 0

/-- R126: carry out of `a + b`, computed in at least 9 bits. -/
def carryOut (a b : Byte) : Bool := decide (255 < a.toNat + b.toNat)

/-- R127, R129 (`90_conflicts.md` C1): 1 iff minuend at least subtrahend. -/
def notBorrow (minuend subtrahend : Byte) : Bool := decide (subtrahend.toNat ≤ minuend.toNat)

/-- R128: the bit a right shift loses. -/
def lostRight (a : Byte) : Bool := a.getLsbD 0

/-- R130: the bit a left shift loses. -/
def lostLeft (a : Byte) : Bool := a.getLsbD 7

/-- R163: `(old & new) != old`, the byte lost a set pixel. -/
def pixelTurnedOff (old new : Byte) : Bool := (old &&& new) != old

/-- R21: `V[F] <- f`. -/
def State.setFlag (s : State) (f : Bool) : State := s.setV flagReg (flagByte f)

/-- R132: "write result, then write flag". -/
def State.setResultThenFlag (s : State) (x : RegIdx) (r : Byte) (f : Bool) : State := (s.setV x r).setFlag f

end Sys2Proof.Machine
end

