-- ==== Sys2Proof/Machine/Ops.lean ====
section
/-! DEFINITION. The named operations every meaning is written over: memory and its checked accessors (`20_memory.md`), the
call stack (R26), taking a fault (R230), the display port's two calls (R163, R164), keys and the random byte. -/

namespace Sys2Proof.Machine

/-! ### Memory -/

/-- R37, R52, R260: what an address holds when nothing is listed for it: the font table, else 0. -/
def Memory.background (font : Font) (a : Nat) : Byte :=
  if h : 0x50 ≤ a ∧ a < 0xA0 then font[a - 0x50]'(by omega) else 0

/-- `MEM[a]`. -/
def Memory.read (font : Font) : Memory → Nat → Byte
  | [], a => Memory.background font a
  | (b, w) :: rest, a => if a = b then w else Memory.read font rest a

/-- `MEM[a] <- v`, keeping the canonical form: rising addresses, no cell equal to the background. -/
def Memory.write (font : Font) (a : Nat) (v : Byte) : Memory → Memory
  | [] => if v = Memory.background font a then [] else [(a, v)]
  | (b, w) :: rest =>
    if a < b then
      if v = Memory.background font a then (b, w) :: rest else (a, v) :: (b, w) :: rest
    else if a = b then
      if v = Memory.background font a then rest else (a, v) :: rest
    else (b, w) :: Memory.write font a v rest

/-- `MEM[a] <- b[0], MEM[a + 1] <- b[1], ...`. -/
def Memory.writeBytes (font : Font) (m : Memory) : Nat → List Byte → Memory
  | _, [] => m
  | a, b :: bs => Memory.writeBytes font (Memory.write font a b m) (a + 1) bs

/-- Every address of a memory is above a bound. -/
def Memory.startsAbove (a : Nat) : Memory → Bool
  | [] => true
  | (b, _) :: _ => decide (a < b)

/-- The canonical form: addresses of R50, strictly rising, no cell equal to the background. -/
def Memory.wf (font : Font) : Memory → Bool
  | [] => true
  | (a, v) :: rest =>
    decide (a < 0x1000) && decide (v ≠ Memory.background font a) && Memory.startsAbove a rest && Memory.wf font rest

/-- `MEM[a]` of a state, unchecked: the host's view (R60) and the value a checked read returns. -/
def State.peek (s : State) (a : Nat) : Byte := Memory.read s.cfg.font s.mem a

/-- Unchecked write of consecutive bytes, used below after the check and by the host's loader (R59). -/
def State.pokeBytes (s : State) (a : Nat) (bs : List Byte) : State :=
  { s with mem := Memory.writeBytes s.cfg.font s.mem a bs }

/-- R4: `ACC_LOW`. -/
def Config.accLow (c : Config) : Nat :=
  match c.accBound with
  | .low => c.low.addr
  | .zero => 0

/-- R53: an access of `len` bytes at `addr` is valid; `addr + len` is computed without wrap. -/
def Config.accessOk (c : Config) (addr : Word) (len : Nat) : Bool :=
  decide (Config.accLow c ≤ addr.toNat ∧ addr.toNat < 0x1000 ∧ addr.toNat + len ≤ 0x1000)

/-- R53: the record of an access that is not valid. -/
def outOfRange (addr : Word) : FaultRecord := ⟨.outOfRange, addr⟩

/-- R54: `MemRead(addr, 1)`. -/
def State.memRead (s : State) (addr : Word) : Except FaultRecord Byte :=
  if Config.accessOk s.cfg addr 1 then .ok (s.peek addr.toNat) else .error (outOfRange addr)

/-- R55: `MemWrite(addr, 1, v)`. -/
def State.memWrite (s : State) (addr : Word) (b : Byte) : Except FaultRecord State :=
  if Config.accessOk s.cfg addr 1 then .ok (s.pokeBytes addr.toNat [b]) else .error (outOfRange addr)

/-- R56, R61: `FetchWord(addr)`, high byte at the lower address. -/
def State.fetchWord (s : State) (addr : Word) : Except FaultRecord Word :=
  if Config.accessOk s.cfg addr 2 then .ok (fuse (s.peek addr.toNat) (s.peek (addr.toNat + 1)))
  else .error (outOfRange addr)

/-- R57: `MemReadSeq(addr, len)`. -/
def State.memReadSeq (s : State) (addr : Word) (len : Nat) : Except FaultRecord (List Byte) :=
  if Config.accessOk s.cfg addr len then .ok ((List.range len).map fun j => s.peek (addr.toNat + j))
  else .error (outOfRange addr)

/-- R58: `MemWriteSeq(addr, b)`. -/
def State.memWriteSeq (s : State) (addr : Word) (bs : List Byte) : Except FaultRecord State :=
  if Config.accessOk s.cfg addr bs.length then .ok (s.pokeBytes addr.toNat bs) else .error (outOfRange addr)

/-! ### Faults -/

/-- R230: fault entry. The record is written and the run ends; nothing else changes, and control goes nowhere. R232:
there is no return from it, and no instruction that returns from a fault. -/
def State.raise (s : State) (f : FaultRecord) : State :=
  { s with run := .faulted, faultKind := some f.kind, faultInfo := f.info }

/-- R6, R199: complete with the given state, or take the fault in the state the rule started from. -/
def State.orRaise (s : State) : Except FaultRecord State → Host.Outcome State Fault Refusal
  | .ok t => .next t
  | .error f => .next (s.raise f)

/-! ### Control transfer and the call stack -/

/-- R100: `PC <- target`, not checked. -/
def State.jumpTo (s : State) (target : Word) : State := { s with pc := target }

/-- R100: a skip skips exactly 2 bytes when its condition holds. -/
def State.skipIf (s : State) (cond : Bool) : State := { s with pc := if cond then pcPlusTwo s.pc else s.pc }

/-- R26: `Push(w)`. -/
def State.push (s : State) (w : Word) : Except FaultRecord State :=
  if h : s.sp.val < 16 then
    .ok { s with stack := s.stack.set s.sp.val w, sp := ⟨s.sp.val + 1, by omega⟩ }
  else .error ⟨.stackOverflow, 0⟩

/-- R26: `Pop()`. -/
def State.pop (s : State) : Except FaultRecord (Word × State) :=
  if h : 0 < s.sp.val then
    .ok (s.stack[s.sp.val - 1]'(by omega), { s with sp := ⟨s.sp.val - 1, by omega⟩ })
  else .error ⟨.stackUnderflow, 0⟩

/-! ### The display port -/

/-- R164: `DisplayClear()`. -/
def State.displayClear (s : State) : State := { s with fb := Vector.replicate 256 0 }

/-- R162: one sprite byte of an overlay, split over two byte columns of its row; the second wraps around the row. -/
def overlayByte (xs : Fin 64) (row : Fin 32) (b : Byte) (ov : Vector Byte 256) : Vector Byte 256 :=
  let c0 := xs.val / 8
  let sh := xs.val % 8
  let c1 := (c0 + 1) % 8
  (ov.set (row.val * 8 + c0) (b >>> sh) (by omega)).set (row.val * 8 + c1) (b <<< (8 - sh)) (by omega)

/-- R162: sprite rows `r`, `r + 1`, ... of an overlay; screen rows wrap modulo 32. -/
def overlayRows (xs : Fin 64) (ys : Fin 32) : Nat → List Byte → Vector Byte 256 → Vector Byte 256
  | _, [], ov => ov
  | r, b :: bs, ov => overlayRows xs ys (r + 1) bs (overlayByte xs (Fin.ofNat 32 (ys.val + r)) b ov)

/-- R162: `Overlay(xs, ys, n, spr)` with `n` the length of `spr`. -/
def overlay (xs : Fin 64) (ys : Fin 32) (spr : List Byte) : Vector Byte 256 :=
  overlayRows xs ys 0 spr (Vector.replicate 256 0)

/-- R163: `FB[i] ^ ov[i]` for every `i`. -/
def composited (fb ov : Vector Byte 256) : Vector Byte 256 :=
  ⟨(List.zipWith (· ^^^ ·) fb.toList ov.toList).toArray, by simp⟩

/-- R163: some byte lost a set pixel. -/
def collides (fb ov : Vector Byte 256) : Bool :=
  (List.zipWith (fun old o => pixelTurnedOff old (old ^^^ o)) fb.toList ov.toList).any id

/-- R163: `DisplayUpdate(ov)`, the new display and the reply `collided`. -/
def State.displayUpdate (s : State) (ov : Vector Byte 256) : State × Bool :=
  ({ s with fb := composited s.fb ov }, collides s.fb ov)

/-! ### Timers, keys, the random byte -/

/-- R24, R181: `DT <- b`. -/
def State.setDt (s : State) (b : Byte) : State := { s with dt := b }

/-- R31, R182: `ST <- b`, and `audio_on` recomputed. -/
def State.setSt (s : State) (b : Byte) : State := { s with st := b, audioOn := b != 0 }

/-- R22: `I <- w`. -/
def State.setI (s : State) (w : Word) : State := { s with i := w }

/-- R168: `KeyPressed(k)` for a key operand that passed the check of R165, R166. -/
def State.keyPressed (s : State) (k : Byte) : Bool := s.env.inputs.keys.getLsbD k.toNat

/-- R131: `RandomByte()`, the byte the source gives in this iteration. -/
def State.randomByte (s : State) : Byte := s.env.inputs.rnd

end Sys2Proof.Machine
end

