-- ==== Sys2Proof/Machine/HostPort.lean ====
section
/-! DEFINITION. What the host does outside the run: load a program (R59), dump the memory (R60), read the exit status (R32).
No step calls any of these. -/

namespace Sys2Proof.Machine

/-- R32: `exit_status`. -/
inductive ExitStatus where
  | success
  | failure
  deriving DecidableEq, Repr

/-- R32: derived from `run`; none while the run goes on. -/
def State.exitStatus (s : State) : Option ExitStatus :=
  match s.run with
  | .halted => some .success
  | .faulted => some .failure
  | .running => none
  | .awaitKey _ => none

/-- R220: the numeric codes. -/
def FaultKind.code : FaultKind → Nat
  | .outOfRange => 1
  | .stackOverflow => 2
  | .stackUnderflow => 3
  | .unrecognizedOpcode => 4
  | .invalidKey => 5
  | .invalidSpriteDigit => 6

/-- R235: the output `fault_kind`, a code 0..6, 0 when no fault. -/
def State.faultCode (s : State) : Nat :=
  match s.faultKind with
  | none => 0
  | some k => FaultKind.code k

/-- R59: `LoadProgram(bytes)`, from `LOW` upward; an image that does not fit is refused before the run (D23). -/
def State.loadProgram (s : State) (image : List Byte) : Host.Outcome State Fault Refusal :=
  if s.cfg.low.addr + image.length ≤ 0x1000 then .next (s.pokeBytes s.cfg.low.addr image)
  else .fault .imageOutOfRange

/-- R60: `DumpImage()`, all 4096 bytes in address order. -/
def State.dumpImage (s : State) : List Byte := (List.range 0x1000).map s.peek

end Sys2Proof.Machine
end

