-- ==== Sys2Proof/Machine/Alu.lean ====
section
/-! DEFINITION. Load immediate, arithmetic, logic, random (`41_alu.md` R119 to R132). None of them changes `PC` or can fault. -/

namespace Sys2Proof.Machine

/-- R120 `6xkk`: `V[x] <- kk`. -/
def execLdImm (x : RegIdx) (kk : Byte) (s : State) : Host.Outcome State Fault Refusal := .next (s.setV x kk)

/-- R121 `7xkk`: `V[x] <- (V[x] + kk) mod 256`, no flag. -/
def execAddImm (x : RegIdx) (kk : Byte) (s : State) : Host.Outcome State Fault Refusal :=
  .next (s.setV x (s.getV x + kk))

/-- R122 `8xy0`: `V[x] <- V[y]`. -/
def execLdReg (x y : RegIdx) (s : State) : Host.Outcome State Fault Refusal := .next (s.setV x (s.getV y))

/-- R123 `8xy1`: `V[x] <- V[x] | V[y]`. -/
def execOrReg (x y : RegIdx) (s : State) : Host.Outcome State Fault Refusal :=
  .next (s.setV x (s.getV x ||| s.getV y))

/-- R124 `8xy2`: `V[x] <- V[x] & V[y]`. -/
def execAndReg (x y : RegIdx) (s : State) : Host.Outcome State Fault Refusal :=
  .next (s.setV x (s.getV x &&& s.getV y))

/-- R125 `8xy3`: `V[x] <- V[x] ^ V[y]`. -/
def execXorReg (x y : RegIdx) (s : State) : Host.Outcome State Fault Refusal :=
  .next (s.setV x (s.getV x ^^^ s.getV y))

/-- R126 `8xy4`: sum modulo 256, flag the carry out. -/
def execAddReg (x y : RegIdx) (s : State) : Host.Outcome State Fault Refusal :=
  .next (s.setResultThenFlag x (s.getV x + s.getV y) (carryOut (s.getV x) (s.getV y)))

/-- R127 `8xy5`: `V[x] - V[y]` modulo 256, flag NOT borrow. -/
def execSub (x y : RegIdx) (s : State) : Host.Outcome State Fault Refusal :=
  .next (s.setResultThenFlag x (s.getV x - s.getV y) (notBorrow (s.getV x) (s.getV y)))

/-- R128 `8xy6`: logical shift right by one, flag the lost bit; `V[y]` is not the operand. -/
def execShr (x _y : RegIdx) (s : State) : Host.Outcome State Fault Refusal :=
  .next (s.setResultThenFlag x (s.getV x >>> 1) (lostRight (s.getV x)))

/-- R129 `8xy7`: `V[y] - V[x]` modulo 256, flag NOT borrow. -/
def execSubn (x y : RegIdx) (s : State) : Host.Outcome State Fault Refusal :=
  .next (s.setResultThenFlag x (s.getV y - s.getV x) (notBorrow (s.getV y) (s.getV x)))

/-- R130 `8xyE`: shift left by one, flag the lost bit; `V[y]` is not the operand. -/
def execShl (x _y : RegIdx) (s : State) : Host.Outcome State Fault Refusal :=
  .next (s.setResultThenFlag x (s.getV x <<< 1) (lostLeft (s.getV x)))

/-- R131 `Cxkk`: `V[x] <- RandomByte() & kk`. -/
def execRnd (x : RegIdx) (kk : Byte) (s : State) : Host.Outcome State Fault Refusal :=
  .next (s.setV x (s.randomByte &&& kk))

end Sys2Proof.Machine
end

