-- ==== Sys2Proof/Machine/ControlFlow.lean ====
section
/-! DEFINITION. Control transfer (`40_control_flow.md` R100 to R108). On entry `PC` is the instruction's address plus 2 (R10). -/

namespace Sys2Proof.Machine

/-- R101 `00EE`: pop and jump; an empty stack is a stack underflow. -/
def execRet (s : State) : Host.Outcome State Fault Refusal :=
  s.orRaise (match s.pop with
    | .ok (w, t) => .ok (t.jumpTo w)
    | .error f => .error f)

/-- R102 `1nnn`: `PC <- nnn`. -/
def execJp (addr : Word) (s : State) : Host.Outcome State Fault Refusal := .next (s.jumpTo addr)

/-- R103 `2nnn`: push `PC`, jump; a full stack is a stack overflow. -/
def execCall (addr : Word) (s : State) : Host.Outcome State Fault Refusal :=
  s.orRaise (match s.push s.pc with
    | .ok t => .ok (t.jumpTo addr)
    | .error f => .error f)

/-- R104 `Bnnn`: `PC <- (nnn + V[0]) mod 65536`. -/
def execJpV0 (addr : Word) (s : State) : Host.Outcome State Fault Refusal :=
  .next (s.jumpTo (addByteToWord addr (s.getV 0)))

/-- R105 `3xkk`: skip if `V[x] = kk`. -/
def execSeImm (x : RegIdx) (kk : Byte) (s : State) : Host.Outcome State Fault Refusal :=
  .next (s.skipIf (s.getV x == kk))

/-- R106 `4xkk`: skip if `V[x] != kk`. -/
def execSneImm (x : RegIdx) (kk : Byte) (s : State) : Host.Outcome State Fault Refusal :=
  .next (s.skipIf (s.getV x != kk))

/-- R107 `5xy0`: skip if `V[x] = V[y]`. -/
def execSeReg (x y : RegIdx) (s : State) : Host.Outcome State Fault Refusal :=
  .next (s.skipIf (s.getV x == s.getV y))

/-- R108 `9xy0`: skip if `V[x] != V[y]`. -/
def execSneReg (x y : RegIdx) (s : State) : Host.Outcome State Fault Refusal :=
  .next (s.skipIf (s.getV x != s.getV y))

end Sys2Proof.Machine
end

