-- ==== Sys2Proof/Machine/DisplayInput.lean ====
section
/-! DEFINITION. Display and keys (`43_display_input.md` R160 to R168). -/

namespace Sys2Proof.Machine

/-- R160 `00E0`: clear the screen. -/
def execCls (s : State) : Host.Outcome State Fault Refusal := .next s.displayClear

/-- R161 `Dxyn`: draw `n` sprite bytes from `I` at `(V[x] mod 64, V[y] mod 32)`; the coordinates are read before `VF`
is written. -/
def execDrw (x y : RegIdx) (n : Nat) (s : State) : Host.Outcome State Fault Refusal :=
  s.orRaise (match s.memReadSeq s.i n with
    | .ok spr =>
      let drawn := s.displayUpdate (overlay (spriteColumn (s.getV x)) (spriteRow (s.getV y)) spr)
      .ok (drawn.1.setFlag drawn.2)
    | .error f => .error f)

/-- R165 `Ex9E`: skip if key `V[x]` is pressed; a key above `0xF` is an invalid key. -/
def execSkp (x : RegIdx) (s : State) : Host.Outcome State Fault Refusal :=
  s.orRaise (if isNibble (s.getV x) then .ok (s.skipIf (s.keyPressed (s.getV x)))
    else .error ⟨.invalidKey, zext16 (s.getV x)⟩)

/-- R166 `ExA1`: skip if key `V[x]` is not pressed; a key above `0xF` is an invalid key. -/
def execSknp (x : RegIdx) (s : State) : Host.Outcome State Fault Refusal :=
  s.orRaise (if isNibble (s.getV x) then .ok (s.skipIf (!s.keyPressed (s.getV x)))
    else .error ⟨.invalidKey, zext16 (s.getV x)⟩)

/-- R167 `Fx0A`: `run <- AwaitKey(x)`; the key is stored by a later key step (R195). -/
def execLdVxK (x : RegIdx) (s : State) : Host.Outcome State Fault Refusal := .next { s with run := .awaitKey x }

end Sys2Proof.Machine
end

