-- ==== Sys2Proof/Machine/IndexMemory.lean ====
section
/-! DEFINITION. The index register and memory (`42_index_memory.md` R139 to R145). None of them changes `PC`; none of the
accesses changes `I`. -/

namespace Sys2Proof.Machine

/-- R140 `Annn`: `I <- nnn`. -/
def execLdI (addr : Word) (s : State) : Host.Outcome State Fault Refusal := .next (s.setI addr)

/-- R141 `Fx1E`: `I <- (I + V[x]) mod 65536`, no flag. -/
def execAddI (x : RegIdx) (s : State) : Host.Outcome State Fault Refusal :=
  .next (s.setI (addByteToWord s.i (s.getV x)))

/-- R142 `Fx29`: `I <- 0x50 + 5 * V[x]`; a digit above `0xF` is an invalid sprite digit. -/
def execLdF (x : RegIdx) (s : State) : Host.Outcome State Fault Refusal :=
  s.orRaise (if isNibble (s.getV x) then .ok (s.setI (fontAddress (s.getV x)))
    else .error ⟨.invalidSpriteDigit, zext16 (s.getV x)⟩)

/-- R143 `Fx33`: store the three decimal digits of `V[x]` at `I`. -/
def execLdB (x : RegIdx) (s : State) : Host.Outcome State Fault Refusal :=
  s.orRaise (s.memWriteSeq s.i (bcdDigits (s.getV x)))

/-- R144 `Fx55`: store `V[0..x]` at `I`. -/
def execLdMemVx (x : RegIdx) (s : State) : Host.Outcome State Fault Refusal :=
  s.orRaise (s.memWriteSeq s.i (s.lowRegs x))

/-- R145 `Fx65`: load `V[0..x]` from `I`. -/
def execLdVxMem (x : RegIdx) (s : State) : Host.Outcome State Fault Refusal :=
  s.orRaise (match s.memReadSeq s.i (x.val + 1) with
    | .ok bs => .ok (s.loadRegs 0 bs)
    | .error f => .error f)

end Sys2Proof.Machine
end

