-- ==== Sys2Proof/Machine/Timers.lean ====
section
/-! DEFINITION. Timer instructions (`44_timers.md` R179 to R182). None of them can fault. -/

namespace Sys2Proof.Machine

/-- R180 `Fx07`: `V[x] <- DT`. -/
def execLdVxDt (x : RegIdx) (s : State) : Host.Outcome State Fault Refusal := .next (s.setV x s.dt)

/-- R181 `Fx15`: `DT <- V[x]`. -/
def execLdDtVx (x : RegIdx) (s : State) : Host.Outcome State Fault Refusal := .next (s.setDt (s.getV x))

/-- R182 `Fx18`: `ST <- V[x]`, `audio_on` recomputed. -/
def execLdStVx (x : RegIdx) (s : State) : Host.Outcome State Fault Refusal := .next (s.setSt (s.getV x))

end Sys2Proof.Machine
end

