-- ==== Sys2Proof/Machine/Scheduler.lean ====
section
/-! DEFINITION. The tick scheduler (`45_scheduler.md`): the steps an iteration can be, the iteration itself (R190), and the
environment's `TickBoundary` (R196). -/

namespace Sys2Proof.Machine

/-- R196, R34: the environment presents the inputs of the next iteration; a tick boundary among them sets `tick_due`, in
any run state. -/
def State.sample (s : State) : State :=
  { s with env := s.env.advance, tickDue := s.tickDue || s.env.upcoming.tick }

/-- R191: `QuitStep`. -/
def State.quitStep (s : State) : State := { s with run := .halted }

/-- R192: a timer counts down and stops at zero. -/
def countDown (b : Byte) : Byte := if b = 0 then 0 else b - 1

/-- R192: `TickStep`. -/
def State.tickStep (s : State) : State :=
  { s with
    dt := countDown s.dt
    st := countDown s.st
    audioOn := countDown s.st != 0
    icount := 0
    tickDue := false }

/-- R195: `KeyStep(x)` with the key `k` of the event. -/
def State.keyStep (s : State) (x : RegIdx) (k : Key) : State :=
  { s.setV x (BitVec.ofNat 8 k.val) with run := .running }

/-- R194: `PC <- (PC + 2) mod 65536`, `icount <- icount + 1`, between the fetch and the dispatch. -/
def State.advancePastFetch (s : State) : State := { s with pc := pcPlusTwo s.pc, icount := s.icount + 1 }

/-- R84, R224: run the instruction of an opcode, or take the unrecognized-opcode fault carrying the raw word. -/
def dispatch (op : Word) (s : State) : Host.Outcome State Fault Refusal :=
  match decode op with
  | .ok i => exec i s
  | .error _ => .next (s.raise ⟨.unrecognizedOpcode, op⟩)

/-- R194: `InstructionStep`. A fetch that faults leaves `PC` and `icount` (D25). -/
def State.instructionStep (s : State) : Host.Outcome State Fault Refusal :=
  match s.fetchWord s.pc with
  | .ok op => dispatch op s.advancePastFetch
  | .error f => .next (s.raise f)

/-- R28, R190: no loop iteration runs in `Halted` and `Faulted`. -/
def RunState.ended : RunState → Bool
  | .running => false
  | .awaitKey _ => false
  | .halted => true
  | .faulted => true

/-- R195: while a key is awaited, deliver an event if there is one, else hold. -/
def State.awaitIteration (s : State) (x : RegIdx) : State :=
  match s.env.inputs.keyEvent with
  | some k => s.keyStep x k
  | none => s

/-- R190, lines 3 to 5: tick, budget hold, instruction. -/
def State.runningIteration (s : State) : Host.Outcome State Fault Refusal :=
  if s.tickDue then .next s.tickStep
  else if s.cfg.ipt ≤ s.icount then .next s
  else s.instructionStep

/-- R190: one loop iteration, its conditions in their fixed order. A machine with `IPT = 0` is refused (U21). -/
def iteration (s : State) : Host.Outcome State Fault Refusal :=
  if s.cfg.ipt = 0 then .refused .budgetBelowOne
  else if s.run.ended then .next s
  else if s.env.inputs.quit then .next s.quitStep
  else
    match s.run with
    | .awaitKey x => .next (s.awaitIteration x)
    | _ => s.runningIteration

end Sys2Proof.Machine
end

