-- ==== Sys2Proof/Machine/Step.lean ====
section
/-! DEFINITION. The step of the machine: sample the environment, then one loop iteration (R8, R190, R196). -/

namespace Sys2Proof.Machine

/-- R8, R190: the atomic step is one loop iteration. -/
def step (s : State) : Host.Outcome State Fault Refusal := iteration s.sample

/-- Where `withFetchWord` puts its word: `PC` when a word can be fetched there, else the load address `LOW`. -/
def State.fetchPlace (s : State) : Word :=
  if Config.accessOk s.cfg s.pc 2 then s.pc else BitVec.ofNat 16 s.cfg.low.addr

/-- The state whose next step fetches and runs the given word: the word lies at the fetch address, the run is `Running`
with no tick pending and budget left, and the script gives the next iteration the inputs now on the ports, without tick,
quit or key event. From a state that runs, has budget and no pending tick, only memory and the script change. -/
def State.withFetchWord (s : State) (nbits w : Nat) : State :=
  let bytes := split (BitVec.ofNat 16 (w % 2 ^ nbits))
  let quiet : Inputs := { s.env.inputs with tick := false, quit := false, keyEvent := none }
  { s.pokeBytes s.fetchPlace.toNat [bytes.1, bytes.2] with
    pc := s.fetchPlace
    run := .running
    icount := if s.icount < s.cfg.ipt then s.icount else 0
    tickDue := false
    faultKind := none
    faultInfo := 0
    env := { s.env with script := quiet :: s.env.script.tail } }

end Sys2Proof.Machine
end

