-- ==== Sys2Proof/Safety.lean ====
section
/-! DEFINITION. What counts as a safe run, and the words the claims are stated in: the invariant of the machine, what a step
is (R190), how often something happens along a run, and the shapes of an instruction's effect. -/

namespace Sys2Proof.Machine

/-! ### Safe runs -/

/-- R198, R231: a state in which no fault has been taken. -/
def State.unfaulted (s : State) : Bool := s.faultKind.isNone && s.run != .faulted

/-- A run of `n` steps that reaches a state and takes no fault on the way (R232: a fault, once taken, stays). -/
def SafeRun (n : Nat) (s : State) : Prop := ∃ t, Host.Core.run Sys2Proof.core n s = .next t ∧ t.unfaulted = true

/-! ### The invariant -/

/-- The memory of a state is in canonical form. -/
abbrev State.memOk (s : State) : Prop := Memory.wf s.cfg.font s.mem = true

/-- What every step keeps, from every state that has it. -/
structure State.Inv (s : State) : Prop where
  /-- R4: `IPT` is at least 1. -/
  budget_pos : 1 ≤ s.cfg.ipt
  /-- The canonical form of memory (log entry 2). -/
  mem_ok : s.memOk
  /-- R29, R197 (f): `0 <= icount <= IPT`. -/
  icount_le : s.icount ≤ s.cfg.ipt
  /-- R32: the fault record is written when `run` becomes `Faulted`, and then only. -/
  fault_iff : s.faultKind.isSome = true ↔ s.run = .faulted
  /-- R37: no fault, no information. -/
  info_zero : s.faultKind = none → s.faultInfo = 0
  /-- R31: `audio_on = (ST != 0)` at every iteration boundary. -/
  audio_eq : s.audioOn = (s.st != 0)
  /-- R23: the largest value `PC` can take is `0x10FE`. -/
  pc_le : s.pc.toNat ≤ 0x10FE
  /-- R101: a live stack entry lies in `[ACC_LOW + 2, 0x1000]`. -/
  live_entries : ∀ j : Fin 16, j.val < s.sp.val →
    Config.accLow s.cfg + 2 ≤ (s.stack[j.val]).toNat ∧ (s.stack[j.val]).toNat ≤ 0x1000

/-! ### What the next step is (R190) -/

/-- The next step is a tick step: after the environment's sample the core is `Running`, no quit, a tick due. -/
def State.ticksNext (s : State) : Bool :=
  s.sample.run == .running && !s.sample.env.inputs.quit && s.sample.tickDue

/-- The next step is an instruction step: `Running`, no quit, no tick due, budget left. -/
def State.executesNext (s : State) : Bool :=
  s.sample.run == .running && !s.sample.env.inputs.quit && !s.sample.tickDue &&
    decide (s.sample.icount < s.sample.cfg.ipt)

/-- The instruction the next step runs, if it runs one. -/
def State.nextInstr (s : State) : Option Instr :=
  if s.executesNext then
    match s.sample.fetchWord s.sample.pc with
    | .ok op =>
      match decode op with
      | .ok i => some i
      | .error _ => none
    | .error _ => none
  else none

/-- The next step runs an `Fx15`. -/
def State.writesDtNext (s : State) : Bool :=
  match s.nextInstr with
  | some (.ldDtVx _) => true
  | _ => false

/-- The next step runs an `Fx18`. -/
def State.writesStNext (s : State) : Bool :=
  match s.nextInstr with
  | some (.ldStVx _) => true
  | _ => false

/-- How many of the first `n` steps from a state have a property of the state they start from. -/
def tally (p : State → Bool) : Nat → State → Nat
  | 0, _ => 0
  | k + 1, s =>
    (if p s then 1 else 0) +
      match step s with
      | .next t => tally p k t
      | .fault _ => 0
      | .refused _ => 0

/-! ### The shapes of an effect -/

/-- R85: every word of a row decodes to the row's instruction with the row's operands. -/
def DecodesTo (mask pattern : Word) (build : Word → Instr) : Prop :=
  ∀ op : Word, op &&& mask = pattern → decode op = .ok (build op)

/-- Every byte of memory reads as before. -/
def SameMemory (s t : State) : Prop := ∀ a, t.peek a = s.peek a

/-- From every state the instruction completes with register `x` at the given value (a natural number below 256) and
everything else unchanged. -/
def WritesReg (i : Instr) (x : RegIdx) (value : State → Nat) : Prop :=
  ∀ s, ∃ t, exec i s = .next t ∧ (t.getV x).toNat = value s ∧ (∀ r, r ≠ x → t.getV r = s.getV r) ∧
    t = { s with v := t.v } ∧ SameMemory s t

/-- From every state the instruction completes with `VF` 1 or 0 as the flag says, register `x` at the given value unless
`x` is `F` (R132), and everything else unchanged. -/
def WritesRegAndFlag (i : Instr) (x : RegIdx) (value : State → Nat) (flag : State → Prop) : Prop :=
  ∀ s, ∃ t, exec i s = .next t ∧ (x ≠ flagReg → (t.getV x).toNat = value s) ∧
    (flag s → t.getV flagReg = 1) ∧ (¬ flag s → t.getV flagReg = 0) ∧
    (∀ r, r ≠ x → r ≠ flagReg → t.getV r = s.getV r) ∧ t = { s with v := t.v } ∧ SameMemory s t

/-- From every state the instruction completes with `PC` at the given value and everything else unchanged. -/
def SetsPc (i : Instr) (target : State → Nat) : Prop :=
  ∀ s, ∃ t, exec i s = .next t ∧ t.pc.toNat = target s ∧ t = { s with pc := t.pc } ∧ SameMemory s t

/-- From every state the instruction completes with `I` at the given value and everything else unchanged. -/
def SetsI (i : Instr) (value : State → Nat) : Prop :=
  ∀ s, ∃ t, exec i s = .next t ∧ t.i.toNat = value s ∧ t = { s with i := t.i } ∧ SameMemory s t

/-- R230: the instruction takes a fault: the record is written, the run is `Faulted`, nothing else changes. -/
def TakesFault (i : Instr) (s : State) (kind : FaultKind) (info : Word) : Prop :=
  exec i s = .next { s with run := .faulted, faultKind := some kind, faultInfo := info }

/-- R53: an access of `len` bytes at `addr` is valid. -/
def ValidAccess (s : State) (addr len : Nat) : Prop :=
  Config.accLow s.cfg ≤ addr ∧ addr < 0x1000 ∧ addr + len ≤ 0x1000

/-- R162: a sprite of `n` rows drawn with coordinates `V[x]`, `V[y]` from `I` has a set pixel at a screen position. -/
def SpriteCovers (s : State) (x y : RegIdx) (n : Nat) (col : Fin 64) (row : Fin 32) : Prop :=
  ∃ r j : Nat, r < n ∧ j < 8 ∧ row.val = ((s.getV y).toNat % 32 + r) % 32 ∧
    col.val = ((s.getV x).toNat % 64 + j) % 64 ∧ (s.peek (s.i.toNat + r)).getLsbD (7 - j) = true

/-- R26: the live entries of the call stack, the top first. -/
def State.liveStack (s : State) : List Word := (s.stack.toList.take s.sp.val).reverse

end Sys2Proof.Machine
end

