-- ==== Sys2Proof/Certificates/Slice0/Obligations.lean ====
section
/-! DEFINITION. The statements for the provers, from the numbered rules of spec/. Where a statement rests on a choice the
spec marks as its own (a decision D<n>) or on a choice of this model (a log entry), its docstring says so. -/

open Sys2Proof Sys2Proof.Machine

/-! ### Encoding -/

/-- R82, R85: words written out bit by bit from the formats, one or more of each. -/
def Obligations.SampleWordsDecodeAsTheMapSays : Prop :=
  decode 0b0000000011100000#16 = .ok .cls ∧
  decode 0b0000000011101110#16 = .ok .ret ∧
  decode 0b0001001000110100#16 = .ok (.jp 0x234) ∧
  decode 0b0011101001011100#16 = .ok (.seImm 0xA 0x5C) ∧
  decode 0b1000000100100111#16 = .ok (.subn 0x1 0x2) ∧
  decode 0b1010110111101111#16 = .ok (.ldI 0xDEF) ∧
  decode 0b1101000100101111#16 = .ok (.drw 0x1 0x2 15) ∧
  decode 0b1110010110100001#16 = .ok (.sknp 0x5) ∧
  decode 0b1111010000011000#16 = .ok (.ldStVx 0x4) ∧
  decode 0b1111101101100101#16 = .ok (.ldVxMem 0xB) ∧
  decode 0x0000#16 = .error (.unrecognizedOpcode 0x0000)

/-- R82, R85: decoding the canonical word of a well-formed instruction gives it back with every operand, and from bytes
leaves what follows. -/
def Obligations.DecodeOfEncodeIsTheInstruction : Prop :=
  ∀ i : Instr, i.wf = true →
    decode (encode i) = .ok i ∧ ∀ rest, decodeBytes (encodeBytes i ++ rest) = .ok (i, rest)

/-- R85: the map has 34 rows, no word matches two, and the algorithm of R84 selects exactly the row that matches, with
the operands of its format; every decoded instruction is well formed. -/
def Obligations.OpcodeMapSelectsTheInstruction : Prop :=
  opcodeMap.length = 34 ∧
  opcodeMap.Pairwise (fun p q => ∀ op : Word, ¬ (op &&& p.mask = p.pattern ∧ op &&& q.mask = q.pattern)) ∧
  (∀ (op : Word) (i : Instr),
    decode op = .ok i ↔ ∃ row ∈ opcodeMap, op &&& row.mask = row.pattern ∧ row.build op = i) ∧
  ∀ (op : Word) (i : Instr), decode op = .ok i → i.wf = true

/-- R86 (the table of words, not its counts): the unrecognized words, each rejected by name with the raw word (R84). -/
def Obligations.UnrecognizedWordsAreExactlyTheTable : Prop :=
  ∀ op : Word, decode op = .error (.unrecognizedOpcode op) ↔
    (fieldN1 op = 0x0 ∧ fieldKK op ∉ [0xE0#8, 0xEE#8]) ∨
    (fieldN1 op = 0x8 ∧ fieldN op ∈ [0x8#4, 0x9#4, 0xA#4, 0xB#4, 0xC#4, 0xD#4, 0xF#4]) ∨
    (fieldN1 op = 0xE ∧ fieldKK op ∉ [0x9E#8, 0xA1#8]) ∨
    (fieldN1 op = 0xF ∧
      fieldKK op ∉ [0x07#8, 0x0A#8, 0x15#8, 0x18#8, 0x1E#8, 0x29#8, 0x33#8, 0x55#8, 0x65#8])

/-- R87 (the spec's decision D21): bits the dispatch key ignores do not matter: two words that agree elsewhere decode
alike, and the unused `y` of a shift has no effect. -/
def Obligations.IgnoredBitsDoNotMatter : Prop :=
  (∀ op : Word, op &&& 0xF0FF = 0x00E0 → decode op = .ok .cls) ∧
  (∀ op : Word, op &&& 0xF0FF = 0x00EE → decode op = .ok .ret) ∧
  (∀ op op' : Word, (op &&& 0xF000 = 0x5000 ∨ op &&& 0xF000 = 0x9000) → op &&& 0xFFF0 = op' &&& 0xFFF0 →
    decode op = decode op') ∧
  (∀ (x y y' : RegIdx) (s : State), exec (.shr x y) s = exec (.shr x y') s) ∧
  (∀ (x y y' : RegIdx) (s : State), exec (.shl x y) s = exec (.shl x y') s)

/-! ### The step of the machine -/

/-- R190, R194: when the environment's sample leaves the core running with no quit, no tick due and budget left, and the
two bytes at `PC` decode to `i`, the step is `exec` of `i` with `PC` advanced by 2 and the budget charged. -/
def Obligations.StepRunsTheDecodedInstruction : Prop :=
  ∀ (s : State) (i : Instr), s.executesNext = true → ValidAccess s s.pc.toNat 2 →
    decode (fuse (s.peek s.pc.toNat) (s.peek (s.pc.toNat + 1))) = .ok i →
    i.wf = true ∧
    step s = exec i { s.sample with pc := BitVec.ofNat 16 ((s.pc.toNat + 2) % 65536), icount := s.icount + 1 }

/-- R196, R30 (the latch and its sampling once an iteration are the spec's decision D16 and the model's log entries 3 and
22): the sample takes the next inputs, a tick boundary among them sets `tick_due` whatever the run state, one already set
stays, and nothing else changes; with a script the next inputs are its first. -/
def Obligations.SampleLatchesTheTickBoundary : Prop :=
  ∀ s : State,
    s.sample = { s with tickDue := s.sample.tickDue, env := s.sample.env } ∧
    (s.sample.tickDue = true ↔ s.tickDue = true ∨ s.env.upcoming.tick = true) ∧
    s.sample.env.inputs = s.env.upcoming ∧
    ∀ first rest, s.env.script = first :: rest →
      s.sample.env.inputs = first ∧ s.sample.env.script = rest

/-- R221 at the fetch, R231: a fetch outside the window takes `OutOfRange(PC)` and changes nothing else. That `PC` and
`icount` stay is the spec's decision D25 (log entry 29); that the information is `PC` also at `PC = 0xFFF`, where the base
is valid and only the end is out, is D9 (U14: any value there; log entry 15). -/
def Obligations.FetchFaultKeepsPcAndBudget : Prop :=
  ∀ s : State, s.executesNext = true → ¬ ValidAccess s s.pc.toNat 2 →
    step s = .next { s.sample with run := .faulted, faultKind := some .outOfRange, faultInfo := s.pc }

/-- R224: a fetched word that matches no row of the opcode map takes `UnrecognizedOpcode(op)`, with `PC` at the address
of the word plus 2 and one unit of budget spent. -/
def Obligations.UnrecognizedOpcodeIsAFault : Prop :=
  ∀ (s : State) (op : Word), s.executesNext = true → ValidAccess s s.pc.toNat 2 →
    op = fuse (s.peek s.pc.toNat) (s.peek (s.pc.toNat + 1)) →
    (∀ row ∈ opcodeMap, op &&& row.mask ≠ row.pattern) →
    step s = .next { s.sample with
      pc := BitVec.ofNat 16 ((s.pc.toNat + 2) % 65536), icount := s.icount + 1
      run := .faulted, faultKind := some .unrecognizedOpcode, faultInfo := op }

/-- R192: a tick step lowers both timers by 1, floor at zero, recomputes `audio_on` from `ST` after the decrement, resets
`icount` and `tick_due`, and changes nothing else. -/
def Obligations.TickStepCountsBothTimersDown : Prop :=
  ∀ s : State, 1 ≤ s.cfg.ipt → s.ticksNext = true →
    ∃ t, step s = .next t ∧ t.dt.toNat = s.dt.toNat - 1 ∧ t.st.toNat = s.st.toNat - 1 ∧
      (t.audioOn = true ↔ t.st ≠ 0) ∧ t.icount = 0 ∧ t.tickDue = false ∧
      t = { s.sample with dt := t.dt, st := t.st, audioOn := t.audioOn, icount := 0, tickDue := false }

/-- R191 (polling it first is the spec's decision D17, log entry 23; the symbolic status is D24): `quit` halts a core that is
running or awaiting a key, before a pending tick or key event, and changes nothing else; the exit status is then success. -/
def Obligations.QuitHaltsTheRun : Prop :=
  ∀ s : State, 1 ≤ s.cfg.ipt → (s.run = .running ∨ ∃ x, s.run = .awaitKey x) →
    s.env.upcoming.quit = true →
    step s = .next { s.sample with run := .halted } ∧
    State.exitStatus { s.sample with run := .halted } = some .success

/-- R193: with the budget used up and no tick due the core executes nothing and changes nothing (but the sample). -/
def Obligations.BudgetHoldChangesNothing : Prop :=
  ∀ s : State, 1 ≤ s.cfg.ipt → s.run = .running → s.env.upcoming.quit = false →
    s.sample.tickDue = false → s.cfg.ipt ≤ s.icount →
    step s = .next s.sample

/-- R195 (no tick step in the wait is the spec's decision D18, no queue of presses D19): awaiting a key, an event's key is
stored in the register and the run goes on; with no event the core holds, whatever `tick_due` is. -/
def Obligations.KeyStepDeliversTheKey : Prop :=
  ∀ (s : State) (x : RegIdx), 1 ≤ s.cfg.ipt → s.run = .awaitKey x → s.env.upcoming.quit = false →
    (∀ k, s.env.upcoming.keyEvent = some k →
      ∃ t, step s = .next t ∧ (t.getV x).toNat = k.val ∧ (∀ r, r ≠ x → t.getV r = s.getV r) ∧
        t = { s.sample with v := t.v, run := .running }) ∧
    (s.env.upcoming.keyEvent = none → step s = .next s.sample)

/-- R28, R232: `Halted` and `Faulted` are absorbing: however many steps are taken, the state and the fault record stay;
only the environment's side and its latch move. That a step from them answers a next state is the model's choice, log
entry 13 (R190 enables no iteration there); that `FB` and `audio_on` keep their values after the end is the model's choice,
log entry 40 (U17 leaves both unsaid). -/
def Obligations.EndedRunsAreAbsorbing : Prop :=
  ∀ (n : Nat) (s : State), 1 ≤ s.cfg.ipt → (s.run = .halted ∨ s.run = .faulted) →
    ∃ t, Host.Core.run Sys2Proof.core n s = .next t ∧ t = { s with tickDue := t.tickDue, env := t.env } ∧
      t.exitStatus = s.exitStatus

/-- R8, R190, R198: with a legal budget every state has a next state: no step stops with a fault or a refusal. A budget of
0 is refused (the spec's U21, log entry 14). That a fault of R220 is a next state is log entry 12, and that a step from
`Halted` or `Faulted` answers one is the model's choice, log entry 13 (R190 enables no iteration there). -/
def Obligations.EveryStepHasANextState : Prop :=
  ∀ s : State, (1 ≤ s.cfg.ipt → ∃ t, step s = .next t) ∧
    (s.cfg.ipt = 0 → step s = .refused .budgetBelowOne)

/-! ### Faults -/

/-- R229, R231, R220 (precise faults are the spec's decisions D10 and D25, the information of codes 2, 3, 5, 6 and of a
ranged access D9): an instruction that takes a fault changes nothing but the run state and the record, and each
instruction has at most one cause, with the information of R220. -/
def Obligations.InstructionFaultsArePrecise : Prop :=
  ∀ (i : Instr) (s t : State), exec i s = .next t → s.run ≠ .faulted → t.run = .faulted →
    ∃ kind info, t = { s with run := .faulted, faultKind := some kind, faultInfo := info } ∧
      match i with
      | .ret => kind = .stackUnderflow ∧ info = 0 ∧ s.sp.val = 0
      | .call _ => kind = .stackOverflow ∧ info = 0 ∧ s.sp.val = 16
      | .skp x => kind = .invalidKey ∧ info.toNat = (s.getV x).toNat ∧ 0xF < (s.getV x).toNat
      | .sknp x => kind = .invalidKey ∧ info.toNat = (s.getV x).toNat ∧ 0xF < (s.getV x).toNat
      | .ldF x => kind = .invalidSpriteDigit ∧ info.toNat = (s.getV x).toNat ∧ 0xF < (s.getV x).toNat
      | .drw _ _ n => kind = .outOfRange ∧ info = s.i ∧ ¬ ValidAccess s s.i.toNat n
      | .ldB _ => kind = .outOfRange ∧ info = s.i ∧ ¬ ValidAccess s s.i.toNat 3
      | .ldMemVx x => kind = .outOfRange ∧ info = s.i ∧ ¬ ValidAccess s s.i.toNat (x.val + 1)
      | .ldVxMem x => kind = .outOfRange ∧ info = s.i ∧ ¬ ValidAccess s s.i.toNat (x.val + 1)
      | _ => False

/-! ### Reset and the invariant -/

/-- R37, R260: what reset leaves, for every choice of the parameters, and the values of R4 in `State.reset`. The registers',
the display's and the scheduler's values are the spec's decisions D4 to D8, D15, D16 (log entries 7 to 10); `LOW = 0x200`
and `IPT = 7` are D20 and the model's choice of the column "value here" of R4 (log entry 1), `ACC_LOW = LOW` is D3 (log
entry 11), and the font bytes are general knowledge, D29 (log entry 6). -/
def Obligations.ResetLeavesTheTableOfValues : Prop :=
  (∀ (c : Config) (r : ResetValues),
    let s := State.resetWith c r
    s.cfg = c ∧
    (∀ a, 0x50 ≤ a → (h : a < 0xA0) → s.peek a = c.font[a - 0x50]) ∧
    (∀ a, (a < 0x50 ∨ 0xA0 ≤ a) → s.peek a = 0) ∧
    (∀ x, s.getV x = r.v) ∧ s.i = r.i ∧ s.dt = r.dt ∧ s.st = r.st ∧ s.pc.toNat = c.low.addr ∧ s.sp.val = 0 ∧
    s.run = .running ∧ s.icount = 0 ∧ s.tickDue = false ∧ (s.audioOn = true ↔ r.st ≠ 0) ∧
    s.faultKind = none ∧ s.faultInfo = 0 ∧ s.fb = r.fb ∧ s.exitStatus = none) ∧
  State.reset = State.resetWith .standard .zero ∧
  State.reset.cfg.low = .normal ∧ State.reset.cfg.low.addr = 0x200 ∧ State.reset.cfg.accBound = .low ∧
  Config.accLow State.reset.cfg = 0x200 ∧ State.reset.cfg.ipt = 7 ∧ State.reset.pc = 0x200 ∧
  (∀ x, State.reset.getV x = 0) ∧ State.reset.i = 0 ∧ State.reset.dt = 0 ∧ State.reset.st = 0 ∧
  State.reset.audioOn = false ∧ (∀ j : Fin 256, State.reset.fb[j.val] = 0) ∧
  State.reset.cfg.font.toList =
    [0xF0, 0x90, 0x90, 0x90, 0xF0] ++ [0x20, 0x60, 0x20, 0x20, 0x70] ++
    [0xF0, 0x10, 0xF0, 0x80, 0xF0] ++ [0xF0, 0x10, 0xF0, 0x10, 0xF0] ++
    [0x90, 0x90, 0xF0, 0x10, 0x10] ++ [0xF0, 0x80, 0xF0, 0x10, 0xF0] ++
    [0xF0, 0x80, 0xF0, 0x90, 0xF0] ++ [0xF0, 0x10, 0x20, 0x40, 0x40] ++
    [0xF0, 0x90, 0xF0, 0x90, 0xF0] ++ [0xF0, 0x90, 0xF0, 0x10, 0xF0] ++
    [0xF0, 0x90, 0xF0, 0x90, 0x90] ++ [0xE0, 0x90, 0xE0, 0x90, 0xE0] ++
    [0xF0, 0x80, 0x80, 0x80, 0xF0] ++ [0xE0, 0x90, 0x90, 0x90, 0xE0] ++
    [0xF0, 0x80, 0xF0, 0x80, 0xF0] ++ [0xF0, 0x80, 0xF0, 0x80, 0x80]

/-- The invariant holds at reset, for both low bounds, both access bounds, every legal budget, font and reset values
(`audio_on` at reset is the spec's decision D15, log entry 9; the canonical form of memory is log entry 2). -/
def Obligations.ResetHasTheInvariant : Prop :=
  State.reset.Inv ∧ ∀ (c : Config) (r : ResetValues), 1 ≤ c.ipt → (State.resetWith c r).Inv

/-- R23, R29, R31, R32, R101, R197 (f): from every state that has it, a step keeps the invariant. Its clause on `audio_on`
after `Fx18` is the spec's decision D15 (log entry 21), the one on `fault_info` without a fault D8 (log entry 9), and the
canonical form of memory the model's choice, log entry 2. -/
def Obligations.StepKeepsTheInvariant : Prop :=
  ∀ s t : State, s.Inv → step s = .next t → t.Inv

/-! ### Who writes what -/

/-- R36, R22 to R27: only the instructions the access summary lists write a piece of state; no instruction writes the
configuration, the counters of the scheduler or the environment. That `Fx55` and `Fx65` leave `I` is the spec's decision
D11 (log entry 17); the configuration and the environment in State are the model's own fields, log entries 1 and 3. -/
def Obligations.OnlyTheListedInstructionsWrite : Prop :=
  ∀ (i : Instr) (s t : State), exec i s = .next t →
    t.cfg = s.cfg ∧ t.icount = s.icount ∧ t.tickDue = s.tickDue ∧ t.env = s.env ∧
    (t.i ≠ s.i → (∃ a, i = .ldI a) ∨ (∃ x, i = .addI x) ∨ ∃ x, i = .ldF x) ∧
    (t.pc ≠ s.pc → i = .ret ∨ (∃ a, i = .jp a ∨ i = .call a ∨ i = .jpV0 a) ∨
      (∃ x kk, i = .seImm x kk ∨ i = .sneImm x kk) ∨ (∃ x y, i = .seReg x y ∨ i = .sneReg x y) ∨
      ∃ x, i = .skp x ∨ i = .sknp x) ∧
    (t.dt ≠ s.dt → ∃ x, i = .ldDtVx x) ∧
    ((t.st ≠ s.st ∨ t.audioOn ≠ s.audioOn) → ∃ x, i = .ldStVx x) ∧
    ((t.stack ≠ s.stack ∨ t.sp ≠ s.sp) → i = .ret ∨ ∃ a, i = .call a) ∧
    (t.mem ≠ s.mem → ∃ x, i = .ldB x ∨ i = .ldMemVx x) ∧
    (t.fb ≠ s.fb → i = .cls ∨ ∃ x y n, i = .drw x y n)

/-- R21, R36: a register changes only by an instruction that names it as its destination, by `Fx65` loading it, or, for
`VF`, by one of the six instructions that write the flag, which leave 0 or 1 in it. `Fx0A`'s own write comes with the
key (R195). -/
def Obligations.RegistersChangeOnlyAsDestinationOrFlag : Prop :=
  ∀ (i : Instr) (s t : State), exec i s = .next t →
    (∀ r, t.getV r ≠ s.getV r →
      (∃ kk, i = .ldImm r kk ∨ i = .addImm r kk ∨ i = .rnd r kk) ∨
      (∃ y, i = .ldReg r y ∨ i = .orReg r y ∨ i = .andReg r y ∨ i = .xorReg r y ∨ i = .addReg r y ∨ i = .sub r y ∨
        i = .shr r y ∨ i = .subn r y ∨ i = .shl r y) ∨
      i = .ldVxDt r ∨ (∃ x, i = .ldVxMem x ∧ r ≤ x) ∨
      (r = flagReg ∧ ∃ x y, i = .addReg x y ∨ i = .sub x y ∨ i = .shr x y ∨ i = .subn x y ∨ i = .shl x y ∨
        ∃ n, i = .drw x y n)) ∧
    (t.run ≠ .faulted → (∃ x y, i = .addReg x y ∨ i = .sub x y ∨ i = .shr x y ∨ i = .subn x y ∨ i = .shl x y ∨
        ∃ n, i = .drw x y n) → t.getV flagReg = 0 ∨ t.getV flagReg = 1)

/-- R131, R239 ("Exactly one byte is drawn per executed `Cxkk` and none by any other instruction"): the random byte on the
port reaches no instruction but `Cxkk`. -/
def Obligations.RandomByteReachesOnlyRnd : Prop :=
  ∀ (i : Instr) (s t : State) (b : Byte), (∀ x kk, i ≠ .rnd x kk) → exec i s = .next t →
    exec i { s with env := { s.env with inputs := { s.env.inputs with rnd := b } } } =
      .next { t with env := { s.env with inputs := { s.env.inputs with rnd := b } } }

/-- R25, R31: no instruction reads `ST` or `audio_on`: started from other values of both, an instruction ends in the same
state but for these two. -/
def Obligations.SoundTimerIsNeverRead : Prop :=
  ∀ (i : Instr) (s t : State) (b : Byte) (on : Bool), exec i s = .next t →
    ∃ u, exec i { s with st := b, audioOn := on } = .next u ∧ u = { t with st := u.st, audioOn := u.audioOn }

/-! ### Memory -/

/-- R54, R55: a valid byte read returns `MEM[addr]`; in a memory in canonical form, a valid byte write is read back, no
other byte changes, and nothing but the memory changes; an access that is not valid raises `OutOfRange(addr)`. -/
def Obligations.ByteWriteIsReadBack : Prop :=
  ∀ (s : State) (addr : Word) (b : Byte), s.memOk →
    (ValidAccess s addr.toNat 1 → s.memRead addr = .ok (s.peek addr.toNat) ∧
      ∃ t, s.memWrite addr b = .ok t ∧ t.memRead addr = .ok b ∧ (∀ a, a ≠ addr.toNat → t.peek a = s.peek a) ∧
        t = { s with mem := t.mem }) ∧
    (¬ ValidAccess s addr.toNat 1 →
      s.memWrite addr b = .error ⟨.outOfRange, addr⟩ ∧ s.memRead addr = .error ⟨.outOfRange, addr⟩)

/-- R56, R61, R66: the fetched word is `MEM[addr] * 256 + MEM[addr + 1]`, at odd addresses too; a byte stored is seen by
the next fetch that covers it, as the high byte at the fetch address and as the low byte after it. That the information
of an invalid fetch is its base address also at `0xFFF` is the spec's decision D9 (U14, log entry 15). -/
def Obligations.FetchIsBigEndianAndSeesStores : Prop :=
  (∀ (s : State) (addr : Word),
    (Config.accLow s.cfg ≤ addr.toNat → addr.toNat + 1 < 0x1000 →
      ∃ w, s.fetchWord addr = .ok w ∧ w.toNat = (s.peek addr.toNat).toNat * 256 + (s.peek (addr.toNat + 1)).toNat) ∧
    (¬ (Config.accLow s.cfg ≤ addr.toNat ∧ addr.toNat + 1 < 0x1000) →
      s.fetchWord addr = .error ⟨.outOfRange, addr⟩)) ∧
  (∀ (s : State) (addr : Word) (b : Byte), s.memOk → ValidAccess s addr.toNat 2 →
    (∃ t w, s.memWrite addr b = .ok t ∧ t.fetchWord addr = .ok w ∧
      w.toNat = b.toNat * 256 + (s.peek (addr.toNat + 1)).toNat) ∧
    (∃ t w, s.memWrite (addr + 1) b = .ok t ∧ t.fetchWord addr = .ok w ∧
      w.toNat = (s.peek addr.toNat).toNat * 256 + b.toNat))

/-- R57, R58: a valid sequence read returns the bytes in address order; in a memory in canonical form, a valid sequence
write is read back as a whole, no byte outside it changes, and nothing but the memory changes; an access that is not
valid raises `OutOfRange(addr)` and writes nothing. The information of a ranged access is the spec's decision D9 (U14, log
entry 15), that nothing of an invalid one lands D10 (log entry 16), that an empty one checks its base D31 (log entry 20). -/
def Obligations.SequenceWriteIsReadBack : Prop :=
  (∀ (s : State) (addr : Word) (len : Nat),
    (ValidAccess s addr.toNat len → ∃ bs, s.memReadSeq addr len = .ok bs ∧ bs.length = len ∧
      ∀ j, (h : j < bs.length) → bs[j] = s.peek (addr.toNat + j)) ∧
    (¬ ValidAccess s addr.toNat len → s.memReadSeq addr len = .error ⟨.outOfRange, addr⟩)) ∧
  ∀ (s : State) (addr : Word) (bs : List Byte), s.memOk →
    (ValidAccess s addr.toNat bs.length →
      ∃ t, s.memWriteSeq addr bs = .ok t ∧ t.memReadSeq addr bs.length = .ok bs ∧
        (∀ j, (h : j < bs.length) → t.peek (addr.toNat + j) = bs[j]) ∧
        (∀ a, (a < addr.toNat ∨ addr.toNat + bs.length ≤ a) → t.peek a = s.peek a) ∧ t = { s with mem := t.mem }) ∧
    (¬ ValidAccess s addr.toNat bs.length → s.memWriteSeq addr bs = .error ⟨.outOfRange, addr⟩)

/-- R68, R51, R53 (with `ACC_LOW = LOW`, the spec's decision D3, log entry 11): which bytes, words and sequences can be
accessed.
The information of a ranged access and of a fetch at `0xFFF` is D9 (U14, log entry 15), and that a sequence of length 0
checks its base is D31 (log entry 20). -/
def Obligations.BoundaryAddressesFaultOrNot : Prop :=
  ∀ s : State, s.cfg.accBound = .low →
    (∀ (addr : Word) (len : Nat), (addr.toNat < s.cfg.low.addr ∨ 0x1000 ≤ addr.toNat ∨ 0x1000 < addr.toNat + len) →
      s.memReadSeq addr len = .error ⟨.outOfRange, addr⟩ ∧
      ∀ bs, bs.length = len → s.memWriteSeq addr bs = .error ⟨.outOfRange, addr⟩) ∧
    (∀ addr : Word, (addr.toNat < s.cfg.low.addr ∨ 0x1000 ≤ addr.toNat) → ∀ b,
      s.memRead addr = .error ⟨.outOfRange, addr⟩ ∧ s.memWrite addr b = .error ⟨.outOfRange, addr⟩ ∧
      s.fetchWord addr = .error ⟨.outOfRange, addr⟩) ∧
    s.fetchWord 0xFFF = .error ⟨.outOfRange, 0xFFF⟩ ∧
    (∀ addr : Word, addr.toNat ∈ [s.cfg.low.addr, s.cfg.low.addr + 1, 0xFFD, 0xFFE, 0xFFF] →
      ∀ b, (∃ v, s.memRead addr = .ok v) ∧ ∃ t, s.memWrite addr b = .ok t) ∧
    (∀ addr : Word, addr.toNat ∈ [s.cfg.low.addr, s.cfg.low.addr + 1, 0xFFD, 0xFFE] →
      ∃ w, s.fetchWord addr = .ok w)

/-- The model's memory (log entry 2): two memories in canonical form over one font that read alike at every address of
the machine are equal data. -/
def Obligations.MemoriesThatReadAlikeAreEqual : Prop :=
  ∀ (font : Font) (m m' : Memory), Memory.wf font m = true → Memory.wf font m' = true →
    (∀ a, a < 0x1000 → Memory.read font m a = Memory.read font m' a) → m = m'

/-- R59, R60 (that an over-long image is refused is the spec's decision D23): the loader copies the image to `LOW` and
changes no other byte, the font among them; an image that does not fit does not start the core; the dump is the 4096
bytes in address order. -/
def Obligations.LoaderAndDumpMoveTheImage : Prop :=
  ∀ (s : State) (image : List Byte), s.memOk →
    (s.cfg.low.addr + image.length ≤ 0x1000 →
      ∃ t, s.loadProgram image = .next t ∧
        (∀ j, (h : j < image.length) → t.peek (s.cfg.low.addr + j) = image[j]) ∧
        (∀ a, (a < s.cfg.low.addr ∨ s.cfg.low.addr + image.length ≤ a) → t.peek a = s.peek a) ∧
        t = { s with mem := t.mem } ∧ t.memOk) ∧
    (0x1000 < s.cfg.low.addr + image.length → s.loadProgram image = .fault .imageOutOfRange) ∧
    s.dumpImage.length = 0x1000 ∧ ∀ a, a < 0x1000 → s.dumpImage[a]? = some (s.peek a)

/-! ### Control transfer -/

/-- R101: return pops and jumps; an empty stack is a stack underflow that changes nothing else. The information 0 of the
fault is the spec's decision D9 (U14: any value; log entry 15), the array and depth of the stack D26 (log entry 30). -/
def Obligations.RetPopsAndJumps : Prop :=
  DecodesTo 0xF0FF 0x00EE (fun _ => .ret) ∧
  ∀ s : State,
    (∀ h : 0 < s.sp.val, ∃ t, exec .ret s = .next t ∧ t.pc = s.stack[s.sp.val - 1] ∧ t.sp.val = s.sp.val - 1 ∧
      t = { s with pc := t.pc, sp := t.sp } ∧ SameMemory s t) ∧
    (s.sp.val = 0 → TakesFault .ret s .stackUnderflow 0)

/-- R103: call pushes `PC` and jumps; the sixteenth nested call succeeds, with 16 entries it is a stack overflow that
changes nothing else. The information 0 of the fault is the spec's decision D9 (U14: any value; log entry 15), the array
and depth of the stack D26 (log entry 30). -/
def Obligations.CallPushesAndJumps : Prop :=
  DecodesTo 0xF000 0x2000 (fun op => .call (fieldNNN op)) ∧
  ∀ (addr : Word) (s : State),
    (s.sp.val < 16 → ∃ t, exec (.call addr) s = .next t ∧ t.pc = addr ∧ t.sp.val = s.sp.val + 1 ∧
      t.liveStack = s.pc :: s.liveStack ∧ t = { s with pc := t.pc, sp := t.sp, stack := t.stack } ∧
      SameMemory s t) ∧
    (s.sp.val = 16 → TakesFault (.call addr) s .stackOverflow 0)

/-- R26, R103 ("`00EE` resumes at the instruction after the call"): after a call that succeeds, a return from wherever the
subroutine got to comes back to the pushed `PC` with the live entries as before the call (the array and depth are the
spec's decision D26, log entry 30). -/
def Obligations.RetAfterCallResumes : Prop :=
  ∀ (addr pc : Word) (s : State), s.sp.val < 16 →
    ∃ t u, exec (.call addr) s = .next t ∧ exec .ret { t with pc := pc } = .next u ∧ u.pc = s.pc ∧ u.sp = s.sp ∧
      u.liveStack = s.liveStack

/-- R102, R104 (the zero-extension of `V0` is the spec's decision D27, log entry 39): jumps set `PC`, unchecked; the indexed
sum is not reduced modulo `0x1000`. -/
def Obligations.JumpsSetPc : Prop :=
  DecodesTo 0xF000 0x1000 (fun op => .jp (fieldNNN op)) ∧
  DecodesTo 0xF000 0xB000 (fun op => .jpV0 (fieldNNN op)) ∧
  (∀ op : Word, (fieldNNN op).toNat = op.toNat % 0x1000) ∧
  (∀ addr : Word, SetsPc (.jp addr) (fun _ => addr.toNat)) ∧
  (∀ addr : Word, SetsPc (.jpV0 addr) (fun s => (addr.toNat + (s.getV 0).toNat) % 65536))

/-- R105 to R108: a skip adds 2 to `PC` exactly when its condition holds. -/
def Obligations.SkipsAddTwoWhenTheConditionHolds : Prop :=
  DecodesTo 0xF000 0x3000 (fun op => .seImm (fieldX op) (fieldKK op)) ∧
  DecodesTo 0xF000 0x4000 (fun op => .sneImm (fieldX op) (fieldKK op)) ∧
  DecodesTo 0xF000 0x5000 (fun op => .seReg (fieldX op) (fieldY op)) ∧
  DecodesTo 0xF000 0x9000 (fun op => .sneReg (fieldX op) (fieldY op)) ∧
  (∀ (x : RegIdx) (kk : Byte),
    SetsPc (.seImm x kk) (fun s => if s.getV x = kk then (s.pc.toNat + 2) % 65536 else s.pc.toNat) ∧
    SetsPc (.sneImm x kk) (fun s => if s.getV x = kk then s.pc.toNat else (s.pc.toNat + 2) % 65536)) ∧
  ∀ x y : RegIdx,
    SetsPc (.seReg x y) (fun s => if s.getV x = s.getV y then (s.pc.toNat + 2) % 65536 else s.pc.toNat) ∧
    SetsPc (.sneReg x y) (fun s => if s.getV x = s.getV y then s.pc.toNat else (s.pc.toNat + 2) % 65536)

/-! ### Load immediate, arithmetic, logic, random -/

/-- R120 to R125: loads, the flagless addition and the logic operations write their destination and no flag. -/
def Obligations.LoadsAndLogicWriteOneRegister : Prop :=
  DecodesTo 0xF000 0x6000 (fun op => .ldImm (fieldX op) (fieldKK op)) ∧
  DecodesTo 0xF000 0x7000 (fun op => .addImm (fieldX op) (fieldKK op)) ∧
  DecodesTo 0xF00F 0x8000 (fun op => .ldReg (fieldX op) (fieldY op)) ∧
  DecodesTo 0xF00F 0x8001 (fun op => .orReg (fieldX op) (fieldY op)) ∧
  DecodesTo 0xF00F 0x8002 (fun op => .andReg (fieldX op) (fieldY op)) ∧
  DecodesTo 0xF00F 0x8003 (fun op => .xorReg (fieldX op) (fieldY op)) ∧
  (∀ (x : RegIdx) (kk : Byte),
    WritesReg (.ldImm x kk) x (fun _ => kk.toNat) ∧
    WritesReg (.addImm x kk) x (fun s => ((s.getV x).toNat + kk.toNat) % 256)) ∧
  ∀ x y : RegIdx,
    WritesReg (.ldReg x y) x (fun s => (s.getV y).toNat) ∧
    WritesReg (.orReg x y) x (fun s => (s.getV x).toNat ||| (s.getV y).toNat) ∧
    WritesReg (.andReg x y) x (fun s => (s.getV x).toNat &&& (s.getV y).toNat) ∧
    WritesReg (.xorReg x y) x (fun s => (s.getV x).toNat ^^^ (s.getV y).toNat)

/-- R126: the sum modulo 256, and the flag 1 iff the sum exceeds 255. -/
def Obligations.AddSetsTheCarryFlag : Prop :=
  DecodesTo 0xF00F 0x8004 (fun op => .addReg (fieldX op) (fieldY op)) ∧
  ∀ x y : RegIdx,
    WritesRegAndFlag (.addReg x y) x (fun s => ((s.getV x).toNat + (s.getV y).toNat) % 256)
      (fun s => 255 < (s.getV x).toNat + (s.getV y).toNat)

/-- R127, R129: the difference modulo 256, and the flag 1 iff no borrow occurred, 1 at equality. -/
def Obligations.SubtractionsSetTheNotBorrowFlag : Prop :=
  DecodesTo 0xF00F 0x8005 (fun op => .sub (fieldX op) (fieldY op)) ∧
  DecodesTo 0xF00F 0x8007 (fun op => .subn (fieldX op) (fieldY op)) ∧
  ∀ x y : RegIdx,
    WritesRegAndFlag (.sub x y) x
      (fun s => if (s.getV x).toNat ≥ (s.getV y).toNat then (s.getV x).toNat - (s.getV y).toNat
        else (s.getV x).toNat + 256 - (s.getV y).toNat)
      (fun s => (s.getV x).toNat ≥ (s.getV y).toNat) ∧
    WritesRegAndFlag (.subn x y) x
      (fun s => if (s.getV y).toNat ≥ (s.getV x).toNat then (s.getV y).toNat - (s.getV x).toNat
        else (s.getV y).toNat + 256 - (s.getV x).toNat)
      (fun s => (s.getV y).toNat ≥ (s.getV x).toNat)

/-- R128, R130: the shifted byte, and the flag the bit shifted out; `V[y]` is not the operand. -/
def Obligations.ShiftsSetTheLostBitFlag : Prop :=
  DecodesTo 0xF00F 0x8006 (fun op => .shr (fieldX op) (fieldY op)) ∧
  DecodesTo 0xF00F 0x800E (fun op => .shl (fieldX op) (fieldY op)) ∧
  ∀ x y : RegIdx,
    WritesRegAndFlag (.shr x y) x (fun s => (s.getV x).toNat / 2) (fun s => (s.getV x).toNat % 2 = 1) ∧
    WritesRegAndFlag (.shl x y) x (fun s => (s.getV x).toNat * 2 % 256) (fun s => 128 ≤ (s.getV x).toNat)

/-- R132, R264: with `x = F` the result of a flag-writing instruction is lost: what `VF` holds afterwards is the flag of
the old values; with `y = F` the old `VF` is the operand. -/
def Obligations.FlagIsWrittenAfterTheResult : Prop :=
  ∀ (y : RegIdx) (s t : State),
    (exec (.addReg flagReg y) s = .next t →
      (t.getV flagReg).toNat = ((s.getV flagReg).toNat + (s.getV y).toNat) / 256) ∧
    (exec (.sub flagReg y) s = .next t →
      (t.getV flagReg).toNat = if (s.getV y).toNat ≤ (s.getV flagReg).toNat then 1 else 0) ∧
    (exec (.subn flagReg y) s = .next t →
      (t.getV flagReg).toNat = if (s.getV flagReg).toNat ≤ (s.getV y).toNat then 1 else 0) ∧
    (exec (.shr flagReg y) s = .next t → (t.getV flagReg).toNat = (s.getV flagReg).toNat % 2) ∧
    (exec (.shl flagReg y) s = .next t → (t.getV flagReg).toNat = (s.getV flagReg).toNat / 128) ∧
    (y ≠ flagReg → exec (.addReg y flagReg) s = .next t →
      (t.getV y).toNat + 256 * (t.getV flagReg).toNat = (s.getV y).toNat + (s.getV flagReg).toNat) ∧
    (y ≠ flagReg → exec (.sub y flagReg) s = .next t →
      (t.getV y).toNat + (s.getV flagReg).toNat = (s.getV y).toNat + 256 * (1 - (t.getV flagReg).toNat)) ∧
    (y ≠ flagReg → exec (.subn y flagReg) s = .next t →
      (t.getV y).toNat + (s.getV y).toNat = (s.getV flagReg).toNat + 256 * (1 - (t.getV flagReg).toNat))

/-- R131 (that the byte is a free input of the step is the spec's decision D22): `Cxkk` writes the masked random byte; a
bit where `kk` is 0 is 0 whatever the byte. -/
def Obligations.RndMasksTheRandomByte : Prop :=
  DecodesTo 0xF000 0xC000 (fun op => .rnd (fieldX op) (fieldKK op)) ∧
  ∀ (x : RegIdx) (kk : Byte),
    WritesReg (.rnd x kk) x (fun s => s.env.inputs.rnd.toNat &&& kk.toNat) ∧
    ∀ (s t : State) (j : Nat), exec (.rnd x kk) s = .next t → kk.getLsbD j = false → (t.getV x).getLsbD j = false

/-! ### The index register and memory instructions -/

/-- R140, R141 (the zero-extension of `V[x]` is the spec's decision D27, log entry 39): `I` is loaded with `nnn`, or a
register is added to it modulo 65536 with no flag. -/
def Obligations.IndexLoadsAndAdds : Prop :=
  DecodesTo 0xF000 0xA000 (fun op => .ldI (fieldNNN op)) ∧
  DecodesTo 0xF0FF 0xF01E (fun op => .addI (fieldX op)) ∧
  (∀ op : Word, (fieldNNN op).toNat = op.toNat % 0x1000) ∧
  (∀ addr : Word, SetsI (.ldI addr) (fun _ => addr.toNat)) ∧
  (∀ x : RegIdx, SetsI (.addI x) (fun s => (s.i.toNat + (s.getV x).toNat) % 65536))

/-- R142 (the fault's information is the spec's decision D9): the address of a digit's sprite, or the invalid sprite
digit fault. -/
def Obligations.FontAddressOrInvalidDigit : Prop :=
  DecodesTo 0xF0FF 0xF029 (fun op => .ldF (fieldX op)) ∧
  ∀ (x : RegIdx) (s : State),
    ((s.getV x).toNat ≤ 0xF → ∃ t, exec (.ldF x) s = .next t ∧ t.i.toNat = 0x50 + 5 * (s.getV x).toNat ∧
      t = { s with i := t.i } ∧ SameMemory s t) ∧
    (0xF < (s.getV x).toNat → TakesFault (.ldF x) s .invalidSpriteDigit (BitVec.ofNat 16 (s.getV x).toNat))

/-- R143 (that a faulting store writes nothing is the spec's decision D10, log entry 16; the information of the fault is D9,
log entry 15): the three decimal digits are stored at `I`, hundreds first, and no other byte changes. -/
def Obligations.BcdStoresThreeDigits : Prop :=
  DecodesTo 0xF0FF 0xF033 (fun op => .ldB (fieldX op)) ∧
  ∀ (x : RegIdx) (s : State), s.memOk →
    (ValidAccess s s.i.toNat 3 → ∃ t, exec (.ldB x) s = .next t ∧
      (t.peek s.i.toNat).toNat = (s.getV x).toNat / 100 ∧
      (t.peek (s.i.toNat + 1)).toNat = (s.getV x).toNat / 10 % 10 ∧
      (t.peek (s.i.toNat + 2)).toNat = (s.getV x).toNat % 10 ∧
      (∀ a, (a < s.i.toNat ∨ s.i.toNat + 3 ≤ a) → t.peek a = s.peek a) ∧ t = { s with mem := t.mem }) ∧
    (¬ ValidAccess s s.i.toNat 3 → TakesFault (.ldB x) s .outOfRange s.i)

/-- R144 (that `I` stays is the spec's decision D11, log entry 17; that a faulting store writes nothing D10, log entry 16; the
information of the fault D9, log entry 15): `V[0..x]` are stored at `I`, and no other byte changes. -/
def Obligations.StoreRegistersWritesTheBlock : Prop :=
  DecodesTo 0xF0FF 0xF055 (fun op => .ldMemVx (fieldX op)) ∧
  ∀ (x : RegIdx) (s : State), s.memOk →
    (ValidAccess s s.i.toNat (x.val + 1) → ∃ t, exec (.ldMemVx x) s = .next t ∧
      (∀ r, r ≤ x → t.peek (s.i.toNat + r.val) = s.getV r) ∧
      (∀ a, (a < s.i.toNat ∨ s.i.toNat + x.val + 1 ≤ a) → t.peek a = s.peek a) ∧ t = { s with mem := t.mem }) ∧
    (¬ ValidAccess s s.i.toNat (x.val + 1) → TakesFault (.ldMemVx x) s .outOfRange s.i)

/-- R145 (that `I` stays is the spec's decision D11, log entry 17; that a faulting load changes nothing D10, log entry 16; the
information of the fault D9, log entry 15): `V[0..x]` are loaded from `I`, the registers above stay. -/
def Obligations.LoadRegistersReadsTheBlock : Prop :=
  DecodesTo 0xF0FF 0xF065 (fun op => .ldVxMem (fieldX op)) ∧
  ∀ (x : RegIdx) (s : State),
    (ValidAccess s s.i.toNat (x.val + 1) → ∃ t, exec (.ldVxMem x) s = .next t ∧
      (∀ r, r ≤ x → t.getV r = s.peek (s.i.toNat + r.val)) ∧ (∀ r, x < r → t.getV r = s.getV r) ∧
      t = { s with v := t.v } ∧ SameMemory s t) ∧
    (¬ ValidAccess s s.i.toNat (x.val + 1) → TakesFault (.ldVxMem x) s .outOfRange s.i)

/-- R145 ("`Fk55` followed by `Fk65` with the same `I` restores `V0..Vk` whatever happened to them in between"). The second
instruction runs with the `I` that `Fk55` left, which is the same by the spec's decision D11 (log entry 17). -/
def Obligations.StoreThenLoadRestoresRegisters : Prop :=
  ∀ (k : RegIdx) (s : State) (v : Vector Byte 16), s.memOk → ValidAccess s s.i.toNat (k.val + 1) →
    ∃ t u, exec (.ldMemVx k) s = .next t ∧ exec (.ldVxMem k) { t with v := v } = .next u ∧
      (∀ r, r ≤ k → u.getV r = s.getV r) ∧ (∀ r, k < r → u.getV r = v[r.val])

/-- R268 (with `ACC_LOW = LOW`, the spec's decision D3, log entry 11): after `Fx29` computes a font address, a draw or a load
through it is out of range. The information of these ranged accesses is D9 (log entry 15); that a draw of height 0 checks
`I` too is D31 (log entry 20). -/
def Obligations.FontIsOutOfReach : Prop :=
  ∀ (x : RegIdx) (s t : State), s.cfg.accBound = .low → exec (.ldF x) s = .next t → t.run ≠ .faulted →
    (∀ (y z : RegIdx) (n : Nat), TakesFault (.drw y z n) t .outOfRange t.i) ∧
    ∀ y : RegIdx, TakesFault (.ldVxMem y) t .outOfRange t.i

/-! ### Display and keys -/

/-- R160, R164: the screen is cleared, all 256 bytes, and `VF` is not written. -/
def Obligations.ClearBlanksTheScreen : Prop :=
  DecodesTo 0xF0FF 0x00E0 (fun _ => .cls) ∧
  ∀ s : State, ∃ t, exec .cls s = .next t ∧ (∀ j : Fin 256, t.fb[j.val] = 0) ∧ t = { s with fb := t.fb } ∧
    SameMemory s t

/-- R163: every byte is XORed with the overlay, and `collided` says whether some byte lost a set pixel. -/
def Obligations.DisplayUpdateXorsAndReportsCollision : Prop :=
  ∀ (s : State) (ov : Vector Byte 256),
    (∀ j : Fin 256, (s.displayUpdate ov).1.fb[j.val] = s.fb[j.val] ^^^ ov[j.val]) ∧
    ((s.displayUpdate ov).2 = true ↔
      ∃ j : Fin 256, s.fb[j.val] &&& (s.fb[j.val] ^^^ ov[j.val]) ≠ s.fb[j.val]) ∧
    ((s.displayUpdate ov).2 = true ↔ ∃ j : Fin 256, s.fb[j.val] &&& ov[j.val] ≠ 0) ∧
    (s.displayUpdate ov).1 = { s with fb := (s.displayUpdate ov).1.fb }

/-- R161, R162 (vertical wrap, bit order, `n = 0` and its check are the spec's decisions D12, D13, D14, D31, log entries 18 to
20; that a faulting draw changes nothing is D10, log entry 16, and its information D9, log entry 15): a draw toggles
exactly the pixels its sprite covers, with both coordinates wrapping; `VF` is 1 iff some set pixel is turned off; a sprite
outside the window is out of range and draws nothing. -/
def Obligations.DrawTogglesTheSpritePixels : Prop :=
  DecodesTo 0xF000 0xD000 (fun op => .drw (fieldX op) (fieldY op) (fieldN op).toNat) ∧
  ∀ (x y : RegIdx) (n : Nat) (s : State), n < 16 →
    (ValidAccess s s.i.toNat n → ∃ t, exec (.drw x y n) s = .next t ∧
      (∀ col row, SpriteCovers s x y n col row → pixel t.fb col row = !pixel s.fb col row) ∧
      (∀ col row, ¬ SpriteCovers s x y n col row → pixel t.fb col row = pixel s.fb col row) ∧
      ((∃ col row, pixel s.fb col row = true ∧ pixel t.fb col row = false) → t.getV flagReg = 1) ∧
      ((¬ ∃ col row, pixel s.fb col row = true ∧ pixel t.fb col row = false) → t.getV flagReg = 0) ∧
      (∀ r, r ≠ flagReg → t.getV r = s.getV r) ∧ t = { s with v := t.v, fb := t.fb } ∧ SameMemory s t) ∧
    (¬ ValidAccess s s.i.toNat n → TakesFault (.drw x y n) s .outOfRange s.i)

/-- R161 (f): drawing the same sprite again at the same place (the first draw leaves both coordinate registers as they
were, which it does unless one of them is `VF` and changes) restores the display, and the second draw reports a collision
iff the sprite has a pixel that was clear before the first. Which pixels a sprite has rests on vertical wrap and bit
order, the spec's decisions D12 and D13 (log entries 18 and 19), and the draw of height 0 on D14 and D31 (log entry 20). -/
def Obligations.DrawingTwiceRestoresTheDisplay : Prop :=
  ∀ (x y : RegIdx) (n : Nat) (s : State), n < 16 → ValidAccess s s.i.toNat n →
    ∃ t, exec (.drw x y n) s = .next t ∧ (x ≠ flagReg → t.getV x = s.getV x) ∧ (y ≠ flagReg → t.getV y = s.getV y) ∧
      (t.getV x = s.getV x → t.getV y = s.getV y →
        ∃ u, exec (.drw x y n) t = .next u ∧ u.fb = s.fb ∧
          (u.getV flagReg = 1 ↔ ∃ col row, SpriteCovers s x y n col row ∧ pixel s.fb col row = false))

/-- R165, R166, R168 (the fault's information is the spec's decision D9, the key state a free input D30): the key skips. -/
def Obligations.KeySkipsReadTheKeyState : Prop :=
  DecodesTo 0xF0FF 0xE09E (fun op => .skp (fieldX op)) ∧
  DecodesTo 0xF0FF 0xE0A1 (fun op => .sknp (fieldX op)) ∧
  ∀ (x : RegIdx) (s : State),
    ((s.getV x).toNat ≤ 0xF →
      (∃ t, exec (.skp x) s = .next t ∧ t = { s with pc := t.pc } ∧ SameMemory s t ∧
        t.pc.toNat = if s.env.inputs.keys.getLsbD (s.getV x).toNat then (s.pc.toNat + 2) % 65536 else s.pc.toNat) ∧
      (∃ t, exec (.sknp x) s = .next t ∧ t = { s with pc := t.pc } ∧ SameMemory s t ∧
        t.pc.toNat = if s.env.inputs.keys.getLsbD (s.getV x).toNat then s.pc.toNat else (s.pc.toNat + 2) % 65536)) ∧
    (0xF < (s.getV x).toNat →
      TakesFault (.skp x) s .invalidKey (BitVec.ofNat 16 (s.getV x).toNat) ∧
      TakesFault (.sknp x) s .invalidKey (BitVec.ofNat 16 (s.getV x).toNat))

/-- R167 (the explicit state is the resolution C5 of the spec's conflicts, that no tick step runs in it the spec's decision
D18, log entry 24): `Fx0A` enters `AwaitKey(x)` and changes nothing else; then, while no key event and no quit comes, step
after step fetches nothing and counts no timer down. -/
def Obligations.KeyWaitSuspendsTheCore : Prop :=
  DecodesTo 0xF0FF 0xF00A (fun op => .ldVxK (fieldX op)) ∧
  (∀ (x : RegIdx) (s : State), exec (.ldVxK x) s = .next { s with run := .awaitKey x }) ∧
  ∀ (x : RegIdx) (script rest : List Inputs) (s : State), 1 ≤ s.cfg.ipt → s.run = .awaitKey x →
    s.env.script = script ++ rest → (∀ inp ∈ script, inp.quit = false ∧ inp.keyEvent = none) →
    ∃ t, Host.Core.run Sys2Proof.core script.length s = .next t ∧
      t = { s with tickDue := t.tickDue, env := t.env } ∧ t.env.script = rest ∧
      (t.tickDue = true ↔ s.tickDue = true ∨ ∃ inp ∈ script, inp.tick = true)

/-! ### Timers and the scheduler along a run -/

/-- R180, R181: the delay timer is read into a register, or written from one; nothing else changes. -/
def Obligations.DelayTimerIsReadAndWritten : Prop :=
  DecodesTo 0xF0FF 0xF007 (fun op => .ldVxDt (fieldX op)) ∧
  DecodesTo 0xF0FF 0xF015 (fun op => .ldDtVx (fieldX op)) ∧
  ∀ x : RegIdx,
    WritesReg (.ldVxDt x) x (fun s => s.dt.toNat) ∧
    ∀ s, ∃ t, exec (.ldDtVx x) s = .next t ∧ t.dt = s.getV x ∧ t = { s with dt := t.dt } ∧ SameMemory s t

/-- R182 (`audio_on` after a write of 0 is the spec's decision D15): the sound timer is written from a register and the
audio signal follows it; nothing else changes. -/
def Obligations.SoundTimerWriteSetsAudio : Prop :=
  DecodesTo 0xF0FF 0xF018 (fun op => .ldStVx (fieldX op)) ∧
  ∀ (x : RegIdx) (s : State), ∃ t, exec (.ldStVx x) s = .next t ∧ t.st = s.getV x ∧
    (t.audioOn = true ↔ s.getV x ≠ 0) ∧ t = { s with st := t.st, audioOn := t.audioOn } ∧ SameMemory s t

/-- R197 (c), (d): along any run in which no `Fx15` executes, `DT` is lowered by exactly the number of tick steps, floor at
zero; likewise `ST` where no `Fx18` executes. -/
def Obligations.TimersFallByTheTickSteps : Prop :=
  ∀ (n : Nat) (s t : State), Host.Core.run Sys2Proof.core n s = .next t →
    (tally State.writesDtNext n s = 0 → t.dt.toNat = s.dt.toNat - tally State.ticksNext n s) ∧
    (tally State.writesStNext n s = 0 → t.st.toNat = s.st.toNat - tally State.ticksNext n s)

/-- R197 (a): after a tick step, however the environment behaves, at most `IPT` instruction steps run before the next. -/
def Obligations.BudgetBoundsInstructionsBetweenTicks : Prop :=
  ∀ (n : Nat) (s t : State), s.ticksNext = true → step s = .next t → tally State.ticksNext n t = 0 →
    tally State.executesNext n t ≤ s.cfg.ipt

/-- R190: a step that is no instruction step (`executesNext` false: a quit, a key step, a tick, a hold, or a step of an ended
run) leaves the program-visible state as it was, but for the timers of a tick and the register a key step writes. That
quit is examined before a key event is the spec's decision D17 (log entry 23); that a step from an ended run answers a
next state, and that `FB` keeps its value there, are the model's choices, log entries 13 and 40 (U17). -/
def Obligations.OnlyInstructionStepsMoveTheProgram : Prop :=
  ∀ s t : State, step s = .next t → s.executesNext = false →
    t.pc = s.pc ∧ t.i = s.i ∧ t.mem = s.mem ∧ t.stack = s.stack ∧ t.sp = s.sp ∧ t.fb = s.fb ∧
    t.faultKind = s.faultKind ∧ t.faultInfo = s.faultInfo ∧ t.cfg = s.cfg ∧
    (t.v ≠ s.v → ∃ x k, s.run = .awaitKey x ∧ s.env.upcoming.keyEvent = some k ∧ s.env.upcoming.quit = false)
end

