-- ==== Sys2Proof/Laws/Decode.lean ====
section
/-! SUPPORT. The fields of a word and of an encoded word, what a mask of R84 fixes of them, and that the decoding algorithm of
R84 and the rows of R85 agree. -/

namespace Sys2Proof

/-! ### Fields as numbers (R81) -/

theorem fieldN1_toNat (op : Word) : (fieldN1 op).toNat = op.toNat / 0x1000 := by
  simp [fieldN1, BitVec.extractLsb'_toNat, Nat.shiftRight_eq_div_pow]
  omega

theorem fieldX_val (op : Word) : (fieldX op).val = op.toNat / 0x100 % 16 := by
  simp [fieldX, Nat.shiftRight_eq_div_pow]

theorem fieldY_val (op : Word) : (fieldY op).val = op.toNat / 0x10 % 16 := by
  simp [fieldY, Nat.shiftRight_eq_div_pow]

theorem fieldN_toNat (op : Word) : (fieldN op).toNat = op.toNat % 16 := by
  simp [fieldN]

theorem fieldKK_toNat (op : Word) : (fieldKK op).toNat = op.toNat % 256 := by
  simp [fieldKK]

theorem fieldNNN_toNat (op : Word) : (fieldNNN op).toNat = op.toNat % 0x1000 := by
  simp [fieldNNN]
  omega

/-! ### A mask fixes the fields it covers -/

/-- A mask of ones over a field fixes the field. -/
theorem extract_of_mask {op mask pattern : Word} (h : op &&& mask = pattern) (lo len : Nat)
    (hm : mask.extractLsb' lo len = BitVec.allOnes len) : op.extractLsb' lo len = pattern.extractLsb' lo len := by
  rw [← h, BitVec.extractLsb'_and, hm, BitVec.and_allOnes]

theorem bit_of_extract {op p : Word} {lo len : Nat} (h : op.extractLsb' lo len = p.extractLsb' lo len) {j : Nat}
    (hlo : lo ≤ j) (hj : j < lo + len) : op.getLsbD j = p.getLsbD j := by
  have hb := congrArg (fun w => w.getLsbD (j - lo)) h
  simpa [BitVec.getLsbD_extractLsb', show j - lo < len by omega, show lo + (j - lo) = j by omega] using hb

theorem and_eq_of_bits {op mask p : Word} (hp : p &&& mask = p)
    (h : ∀ j, j < 16 → mask.getLsbD j = true → op.getLsbD j = p.getLsbD j) : op &&& mask = p := by
  rw [← hp]
  apply BitVec.eq_of_getLsbD_eq
  intro j hj
  simp only [BitVec.getLsbD_and]
  cases hm : mask.getLsbD j with
  | false => simp
  | true => simp [h j hj hm]

theorem and_F000_iff (op : Word) {p : Word} (hp : p &&& 0xF000 = p) :
    op &&& 0xF000 = p ↔ fieldN1 op = fieldN1 p := by
  constructor
  · intro h
    exact extract_of_mask h 12 4 (by decide)
  · intro h
    refine and_eq_of_bits hp fun j hj hm => ?_
    have : 12 ≤ j := by
      revert hm hj; revert j; decide
    exact bit_of_extract h this (by omega)

theorem and_F00F_iff (op : Word) {p : Word} (hp : p &&& 0xF00F = p) :
    op &&& 0xF00F = p ↔ fieldN1 op = fieldN1 p ∧ fieldN op = fieldN p := by
  constructor
  · intro h
    exact ⟨extract_of_mask h 12 4 (by decide), extract_of_mask h 0 4 (by decide)⟩
  · rintro ⟨h1, h0⟩
    refine and_eq_of_bits hp fun j hj hm => ?_
    have : 12 ≤ j ∨ j < 4 := by
      revert hm hj; revert j; decide
    rcases this with h | h
    · exact bit_of_extract h1 h (by omega)
    · exact bit_of_extract h0 (by omega) (by omega)

theorem and_F0FF_iff (op : Word) {p : Word} (hp : p &&& 0xF0FF = p) :
    op &&& 0xF0FF = p ↔ fieldN1 op = fieldN1 p ∧ fieldKK op = fieldKK p := by
  constructor
  · intro h
    exact ⟨extract_of_mask h 12 4 (by decide), extract_of_mask h 0 8 (by decide)⟩
  · rintro ⟨h1, h0⟩
    refine and_eq_of_bits hp fun j hj hm => ?_
    have : 12 ≤ j ∨ j < 8 := by
      revert hm hj; revert j; decide
    rcases this with h | h
    · exact bit_of_extract h1 h (by omega)
    · exact bit_of_extract h0 (by omega) (by omega)

/-! ### The algorithm of R84 and the rows of R85 -/

/-- A word that matches a row decodes to the row's instruction. -/
theorem opcodeMap_decodes : ∀ row ∈ opcodeMap, ∀ op : Word, op &&& row.mask = row.pattern →
    decode op = .ok (row.build op) := by
  intro row hr op h
  simp only [opcodeMap, opcodeMapLow, opcodeMapEight, opcodeMapHigh, opcodeMapF, List.cons_append, List.nil_append,
    List.mem_cons, List.not_mem_nil, or_false] at hr
  rcases hr with rfl | rfl | rfl | rfl | rfl | rfl | rfl | rfl | rfl | rfl | rfl | rfl | rfl | rfl | rfl | rfl | rfl |
    rfl | rfl | rfl | rfl | rfl | rfl | rfl | rfl | rfl | rfl | rfl | rfl | rfl | rfl | rfl | rfl | rfl
  all_goals
    first
    | (unfold decode; rw [(and_F000_iff op (by decide)).1 h]; rfl)
    | (obtain ⟨h1, h0⟩ := (and_F00F_iff op (by decide)).1 h
       unfold decode; rw [h1]; change decodeClass8 op = _; unfold decodeClass8; rw [h0]; rfl)
    | (obtain ⟨h1, h0⟩ := (and_F0FF_iff op (by decide)).1 h
       unfold decode; rw [h1]
       first
       | (change decodeClass0 op = _; unfold decodeClass0; rw [h0]; rfl)
       | (change decodeClassE op = _; unfold decodeClassE; rw [h0]; rfl)
       | (change decodeClassF op = _; unfold decodeClassF; rw [h0]; rfl))

theorem decode_row {op : Word} {i : Instr} (k : Nat) {row : OpcodeRow} (hk : opcodeMap[k]? = some row)
    (hm : op &&& row.mask = row.pattern) (h : Except.ok (row.build op) = (Except.ok i : Except Reject Instr)) :
    ∃ row ∈ opcodeMap, op &&& row.mask = row.pattern ∧ row.build op = i :=
  ⟨row, List.mem_of_getElem? hk, hm, Except.ok.inj h⟩

theorem fieldN1_of_toNat {op p : Word} {k : Nat} (hk : (fieldN1 p).toNat = k) (h : (fieldN1 op).toNat = k) :
    fieldN1 op = fieldN1 p := BitVec.eq_of_toNat_eq (h.trans hk.symm)

/-- A word that decodes matches a row. -/
theorem decode_inv {op : Word} {i : Instr} (h : decode op = .ok i) :
    ∃ row ∈ opcodeMap, op &&& row.mask = row.pattern ∧ row.build op = i := by
  have h1 {p : Word} (k : Nat) (e : (fieldN1 op).toNat = k) (hp : p &&& 0xF000 = p) (hk : (fieldN1 p).toNat = k) :
      op &&& 0xF000 = p := (and_F000_iff op hp).2 (fieldN1_of_toNat hk e)
  have h3 {p : Word} (k : Nat) (e : (fieldN1 op).toNat = k) (e0 : fieldN op = fieldN p) (hp : p &&& 0xF00F = p)
      (hk : (fieldN1 p).toNat = k) : op &&& 0xF00F = p := (and_F00F_iff op hp).2 ⟨fieldN1_of_toNat hk e, e0⟩
  have h2 {p : Word} (k : Nat) (e : (fieldN1 op).toNat = k) (e0 : fieldKK op = fieldKK p) (hp : p &&& 0xF0FF = p)
      (hk : (fieldN1 p).toNat = k) : op &&& 0xF0FF = p := (and_F0FF_iff op hp).2 ⟨fieldN1_of_toNat hk e, e0⟩
  unfold decode at h
  split at h
  next e =>
    unfold decodeClass0 at h
    split at h
    next e0 => exact decode_row 0 rfl (h2 0 e e0 (by decide) (by decide)) h
    split at h
    next e0 => exact decode_row 1 rfl (h2 0 e e0 (by decide) (by decide)) h
    cases h
  next e => exact decode_row 2 rfl (h1 _ e (by decide) (by decide)) h
  next e => exact decode_row 3 rfl (h1 _ e (by decide) (by decide)) h
  next e => exact decode_row 4 rfl (h1 _ e (by decide) (by decide)) h
  next e => exact decode_row 5 rfl (h1 _ e (by decide) (by decide)) h
  next e => exact decode_row 6 rfl (h1 _ e (by decide) (by decide)) h
  next e => exact decode_row 7 rfl (h1 _ e (by decide) (by decide)) h
  next e => exact decode_row 8 rfl (h1 _ e (by decide) (by decide)) h
  next e =>
    unfold decodeClass8 at h
    split at h
    next e0 => exact decode_row 9 rfl (h3 _ e e0 (by decide) (by decide)) h
    split at h
    next e0 => exact decode_row 10 rfl (h3 _ e e0 (by decide) (by decide)) h
    split at h
    next e0 => exact decode_row 11 rfl (h3 _ e e0 (by decide) (by decide)) h
    split at h
    next e0 => exact decode_row 12 rfl (h3 _ e e0 (by decide) (by decide)) h
    split at h
    next e0 => exact decode_row 13 rfl (h3 _ e e0 (by decide) (by decide)) h
    split at h
    next e0 => exact decode_row 14 rfl (h3 _ e e0 (by decide) (by decide)) h
    split at h
    next e0 => exact decode_row 15 rfl (h3 _ e e0 (by decide) (by decide)) h
    split at h
    next e0 => exact decode_row 16 rfl (h3 _ e e0 (by decide) (by decide)) h
    split at h
    next e0 => exact decode_row 17 rfl (h3 _ e e0 (by decide) (by decide)) h
    cases h
  next e => exact decode_row 18 rfl (h1 _ e (by decide) (by decide)) h
  next e => exact decode_row 19 rfl (h1 _ e (by decide) (by decide)) h
  next e => exact decode_row 20 rfl (h1 _ e (by decide) (by decide)) h
  next e => exact decode_row 21 rfl (h1 _ e (by decide) (by decide)) h
  next e => exact decode_row 22 rfl (h1 _ e (by decide) (by decide)) h
  next e =>
    unfold decodeClassE at h
    split at h
    next e0 => exact decode_row 23 rfl (h2 _ e e0 (by decide) (by decide)) h
    split at h
    next e0 => exact decode_row 24 rfl (h2 _ e e0 (by decide) (by decide)) h
    cases h
  next hlt =>
    have e : (fieldN1 op).toNat = 15 := by
      have := (fieldN1 op).isLt
      simp only [imp_false] at *
      omega
    unfold decodeClassF at h
    split at h
    next e0 => exact decode_row 25 rfl (h2 _ e e0 (by decide) (by decide)) h
    split at h
    next e0 => exact decode_row 26 rfl (h2 _ e e0 (by decide) (by decide)) h
    split at h
    next e0 => exact decode_row 27 rfl (h2 _ e e0 (by decide) (by decide)) h
    split at h
    next e0 => exact decode_row 28 rfl (h2 _ e e0 (by decide) (by decide)) h
    split at h
    next e0 => exact decode_row 29 rfl (h2 _ e e0 (by decide) (by decide)) h
    split at h
    next e0 => exact decode_row 30 rfl (h2 _ e e0 (by decide) (by decide)) h
    split at h
    next e0 => exact decode_row 31 rfl (h2 _ e e0 (by decide) (by decide)) h
    split at h
    next e0 => exact decode_row 32 rfl (h2 _ e e0 (by decide) (by decide)) h
    split at h
    next e0 => exact decode_row 33 rfl (h2 _ e e0 (by decide) (by decide)) h
    cases h

/-- A rejected word is rejected by its own value. -/
theorem decode_error {op : Word} {r : Reject} (h : decode op = .error r) : r = .unrecognizedOpcode op := by
  unfold decode decodeClass0 decodeClass8 decodeClassE decodeClassF at h
  repeat' split at h
  all_goals first | (cases h; rfl) | cases h

/-- What decodes is well formed. -/
theorem decode_wf {op : Word} {i : Instr} (h : decode op = .ok i) : i.wf = true := by
  obtain ⟨row, hr, -, rfl⟩ := decode_inv h
  have hn : addrFits (fieldNNN op) = true := by
    simp only [addrFits, fieldNNN_toNat, decide_eq_true_eq]; omega
  have hh : heightFits (fieldN op).toNat = true := by
    simp only [heightFits, decide_eq_true_eq]; exact (fieldN op).isLt
  simp only [opcodeMap, opcodeMapLow, opcodeMapEight, opcodeMapHigh, opcodeMapF, List.cons_append, List.nil_append,
    List.mem_cons, List.not_mem_nil, or_false] at hr
  rcases hr with rfl | rfl | rfl | rfl | rfl | rfl | rfl | rfl | rfl | rfl | rfl | rfl | rfl | rfl | rfl | rfl | rfl |
    rfl | rfl | rfl | rfl | rfl | rfl | rfl | rfl | rfl | rfl | rfl | rfl | rfl | rfl | rfl | rfl | rfl
  all_goals first | rfl | exact hn | exact hh

/-! ### The fields of an encoded word (R82) -/

theorem wordXKK_toNat {n1 : Nat} (h : n1 < 16) (x : RegIdx) (kk : Byte) :
    (wordXKK n1 x kk).toNat = n1 * 0x1000 + x.val * 0x100 + kk.toNat := by
  have := kk.isLt
  simp only [wordXKK, BitVec.toNat_ofNat]
  omega

theorem wordXYN_toNat {n1 : Nat} (h : n1 < 16) (x y : RegIdx) (n : Nat) :
    (wordXYN n1 x y n).toNat = n1 * 0x1000 + x.val * 0x100 + y.val * 0x10 + n % 0x10 := by
  simp only [wordXYN, BitVec.toNat_ofNat]
  omega

theorem wordNNN_toNat {n1 : Nat} (h : n1 < 16) (addr : Word) :
    (wordNNN n1 addr).toNat = n1 * 0x1000 + addr.toNat % 0x1000 := by
  simp only [wordNNN, BitVec.toNat_ofNat]
  omega

theorem fields_wordXKK {n1 : Nat} (h : n1 < 16) (x : RegIdx) (kk : Byte) :
    fieldN1 (wordXKK n1 x kk) = BitVec.ofNat 4 n1 ∧ fieldX (wordXKK n1 x kk) = x ∧ fieldKK (wordXKK n1 x kk) = kk := by
  have e := wordXKK_toNat h x kk
  have hk := kk.isLt
  refine ⟨BitVec.eq_of_toNat_eq ?_, Fin.ext ?_, BitVec.eq_of_toNat_eq ?_⟩
  · rw [fieldN1_toNat, e, BitVec.toNat_ofNat]; omega
  · rw [fieldX_val, e]; omega
  · rw [fieldKK_toNat, e]; omega

theorem fields_wordXYN {n1 : Nat} (h : n1 < 16) (x y : RegIdx) (n : Nat) :
    fieldN1 (wordXYN n1 x y n) = BitVec.ofNat 4 n1 ∧ fieldX (wordXYN n1 x y n) = x ∧ fieldY (wordXYN n1 x y n) = y ∧
      fieldN (wordXYN n1 x y n) = BitVec.ofNat 4 n := by
  have e := wordXYN_toNat h x y n
  refine ⟨BitVec.eq_of_toNat_eq ?_, Fin.ext ?_, Fin.ext ?_, BitVec.eq_of_toNat_eq ?_⟩
  · rw [fieldN1_toNat, e, BitVec.toNat_ofNat]; omega
  · rw [fieldX_val, e]; omega
  · rw [fieldY_val, e]; omega
  · rw [fieldN_toNat, e, BitVec.toNat_ofNat]; omega

theorem fields_wordNNN {n1 : Nat} (h : n1 < 16) (addr : Word) (ha : addrFits addr = true) :
    fieldN1 (wordNNN n1 addr) = BitVec.ofNat 4 n1 ∧ fieldNNN (wordNNN n1 addr) = addr := by
  have e := wordNNN_toNat h addr
  simp only [addrFits, decide_eq_true_eq] at ha
  refine ⟨BitVec.eq_of_toNat_eq ?_, BitVec.eq_of_toNat_eq ?_⟩
  · rw [fieldN1_toNat, e, BitVec.toNat_ofNat]; omega
  · rw [fieldNNN_toNat, e]; omega

/-! ### Byte order (R5) -/

/-- R5: for all words `w`, `fuse(split(w)) = w`. -/
theorem fuse_split (w : Word) : fuse (split w).1 (split w).2 = w := by
  apply BitVec.eq_of_toNat_eq
  simp [fuse, split, Nat.shiftRight_eq_div_pow]
  omega
end Sys2Proof
end

