-- ==== Sys2Proof/Laws/State.lean ====
section
/-! SUPPORT. One lemma per field per update of the state, true by unfolding once: no later proof unfolds a record update. -/

namespace Sys2Proof.Machine

variable (s : State)


/-! ### `setV` -/

@[simp] theorem State.setV_cfg (x : RegIdx) (b : Byte) : (s.setV x b).cfg = s.cfg := rfl
@[simp] theorem State.setV_v (x : RegIdx) (b : Byte) : (s.setV x b).v = s.v.set x.val b := rfl
@[simp] theorem State.setV_i (x : RegIdx) (b : Byte) : (s.setV x b).i = s.i := rfl
@[simp] theorem State.setV_pc (x : RegIdx) (b : Byte) : (s.setV x b).pc = s.pc := rfl
@[simp] theorem State.setV_dt (x : RegIdx) (b : Byte) : (s.setV x b).dt = s.dt := rfl
@[simp] theorem State.setV_st (x : RegIdx) (b : Byte) : (s.setV x b).st = s.st := rfl
@[simp] theorem State.setV_stack (x : RegIdx) (b : Byte) : (s.setV x b).stack = s.stack := rfl
@[simp] theorem State.setV_sp (x : RegIdx) (b : Byte) : (s.setV x b).sp = s.sp := rfl
@[simp] theorem State.setV_mem (x : RegIdx) (b : Byte) : (s.setV x b).mem = s.mem := rfl
@[simp] theorem State.setV_run (x : RegIdx) (b : Byte) : (s.setV x b).run = s.run := rfl
@[simp] theorem State.setV_icount (x : RegIdx) (b : Byte) : (s.setV x b).icount = s.icount := rfl
@[simp] theorem State.setV_tickDue (x : RegIdx) (b : Byte) : (s.setV x b).tickDue = s.tickDue := rfl
@[simp] theorem State.setV_audioOn (x : RegIdx) (b : Byte) : (s.setV x b).audioOn = s.audioOn := rfl
@[simp] theorem State.setV_faultKind (x : RegIdx) (b : Byte) : (s.setV x b).faultKind = s.faultKind := rfl
@[simp] theorem State.setV_faultInfo (x : RegIdx) (b : Byte) : (s.setV x b).faultInfo = s.faultInfo := rfl
@[simp] theorem State.setV_fb (x : RegIdx) (b : Byte) : (s.setV x b).fb = s.fb := rfl
@[simp] theorem State.setV_env (x : RegIdx) (b : Byte) : (s.setV x b).env = s.env := rfl

/-! ### `setI` -/

@[simp] theorem State.setI_cfg (w : Word) : (s.setI w).cfg = s.cfg := rfl
@[simp] theorem State.setI_v (w : Word) : (s.setI w).v = s.v := rfl
@[simp] theorem State.setI_i (w : Word) : (s.setI w).i = w := rfl
@[simp] theorem State.setI_pc (w : Word) : (s.setI w).pc = s.pc := rfl
@[simp] theorem State.setI_dt (w : Word) : (s.setI w).dt = s.dt := rfl
@[simp] theorem State.setI_st (w : Word) : (s.setI w).st = s.st := rfl
@[simp] theorem State.setI_stack (w : Word) : (s.setI w).stack = s.stack := rfl
@[simp] theorem State.setI_sp (w : Word) : (s.setI w).sp = s.sp := rfl
@[simp] theorem State.setI_mem (w : Word) : (s.setI w).mem = s.mem := rfl
@[simp] theorem State.setI_run (w : Word) : (s.setI w).run = s.run := rfl
@[simp] theorem State.setI_icount (w : Word) : (s.setI w).icount = s.icount := rfl
@[simp] theorem State.setI_tickDue (w : Word) : (s.setI w).tickDue = s.tickDue := rfl
@[simp] theorem State.setI_audioOn (w : Word) : (s.setI w).audioOn = s.audioOn := rfl
@[simp] theorem State.setI_faultKind (w : Word) : (s.setI w).faultKind = s.faultKind := rfl
@[simp] theorem State.setI_faultInfo (w : Word) : (s.setI w).faultInfo = s.faultInfo := rfl
@[simp] theorem State.setI_fb (w : Word) : (s.setI w).fb = s.fb := rfl
@[simp] theorem State.setI_env (w : Word) : (s.setI w).env = s.env := rfl

/-! ### `jumpTo` -/

@[simp] theorem State.jumpTo_cfg (w : Word) : (s.jumpTo w).cfg = s.cfg := rfl
@[simp] theorem State.jumpTo_v (w : Word) : (s.jumpTo w).v = s.v := rfl
@[simp] theorem State.jumpTo_i (w : Word) : (s.jumpTo w).i = s.i := rfl
@[simp] theorem State.jumpTo_pc (w : Word) : (s.jumpTo w).pc = w := rfl
@[simp] theorem State.jumpTo_dt (w : Word) : (s.jumpTo w).dt = s.dt := rfl
@[simp] theorem State.jumpTo_st (w : Word) : (s.jumpTo w).st = s.st := rfl
@[simp] theorem State.jumpTo_stack (w : Word) : (s.jumpTo w).stack = s.stack := rfl
@[simp] theorem State.jumpTo_sp (w : Word) : (s.jumpTo w).sp = s.sp := rfl
@[simp] theorem State.jumpTo_mem (w : Word) : (s.jumpTo w).mem = s.mem := rfl
@[simp] theorem State.jumpTo_run (w : Word) : (s.jumpTo w).run = s.run := rfl
@[simp] theorem State.jumpTo_icount (w : Word) : (s.jumpTo w).icount = s.icount := rfl
@[simp] theorem State.jumpTo_tickDue (w : Word) : (s.jumpTo w).tickDue = s.tickDue := rfl
@[simp] theorem State.jumpTo_audioOn (w : Word) : (s.jumpTo w).audioOn = s.audioOn := rfl
@[simp] theorem State.jumpTo_faultKind (w : Word) : (s.jumpTo w).faultKind = s.faultKind := rfl
@[simp] theorem State.jumpTo_faultInfo (w : Word) : (s.jumpTo w).faultInfo = s.faultInfo := rfl
@[simp] theorem State.jumpTo_fb (w : Word) : (s.jumpTo w).fb = s.fb := rfl
@[simp] theorem State.jumpTo_env (w : Word) : (s.jumpTo w).env = s.env := rfl

/-! ### `skipIf` -/

@[simp] theorem State.skipIf_cfg (c : Bool) : (s.skipIf c).cfg = s.cfg := rfl
@[simp] theorem State.skipIf_v (c : Bool) : (s.skipIf c).v = s.v := rfl
@[simp] theorem State.skipIf_i (c : Bool) : (s.skipIf c).i = s.i := rfl
@[simp] theorem State.skipIf_pc (c : Bool) : (s.skipIf c).pc = if c then pcPlusTwo s.pc else s.pc := rfl
@[simp] theorem State.skipIf_dt (c : Bool) : (s.skipIf c).dt = s.dt := rfl
@[simp] theorem State.skipIf_st (c : Bool) : (s.skipIf c).st = s.st := rfl
@[simp] theorem State.skipIf_stack (c : Bool) : (s.skipIf c).stack = s.stack := rfl
@[simp] theorem State.skipIf_sp (c : Bool) : (s.skipIf c).sp = s.sp := rfl
@[simp] theorem State.skipIf_mem (c : Bool) : (s.skipIf c).mem = s.mem := rfl
@[simp] theorem State.skipIf_run (c : Bool) : (s.skipIf c).run = s.run := rfl
@[simp] theorem State.skipIf_icount (c : Bool) : (s.skipIf c).icount = s.icount := rfl
@[simp] theorem State.skipIf_tickDue (c : Bool) : (s.skipIf c).tickDue = s.tickDue := rfl
@[simp] theorem State.skipIf_audioOn (c : Bool) : (s.skipIf c).audioOn = s.audioOn := rfl
@[simp] theorem State.skipIf_faultKind (c : Bool) : (s.skipIf c).faultKind = s.faultKind := rfl
@[simp] theorem State.skipIf_faultInfo (c : Bool) : (s.skipIf c).faultInfo = s.faultInfo := rfl
@[simp] theorem State.skipIf_fb (c : Bool) : (s.skipIf c).fb = s.fb := rfl
@[simp] theorem State.skipIf_env (c : Bool) : (s.skipIf c).env = s.env := rfl

/-! ### `setDt` -/

@[simp] theorem State.setDt_cfg (b : Byte) : (s.setDt b).cfg = s.cfg := rfl
@[simp] theorem State.setDt_v (b : Byte) : (s.setDt b).v = s.v := rfl
@[simp] theorem State.setDt_i (b : Byte) : (s.setDt b).i = s.i := rfl
@[simp] theorem State.setDt_pc (b : Byte) : (s.setDt b).pc = s.pc := rfl
@[simp] theorem State.setDt_dt (b : Byte) : (s.setDt b).dt = b := rfl
@[simp] theorem State.setDt_st (b : Byte) : (s.setDt b).st = s.st := rfl
@[simp] theorem State.setDt_stack (b : Byte) : (s.setDt b).stack = s.stack := rfl
@[simp] theorem State.setDt_sp (b : Byte) : (s.setDt b).sp = s.sp := rfl
@[simp] theorem State.setDt_mem (b : Byte) : (s.setDt b).mem = s.mem := rfl
@[simp] theorem State.setDt_run (b : Byte) : (s.setDt b).run = s.run := rfl
@[simp] theorem State.setDt_icount (b : Byte) : (s.setDt b).icount = s.icount := rfl
@[simp] theorem State.setDt_tickDue (b : Byte) : (s.setDt b).tickDue = s.tickDue := rfl
@[simp] theorem State.setDt_audioOn (b : Byte) : (s.setDt b).audioOn = s.audioOn := rfl
@[simp] theorem State.setDt_faultKind (b : Byte) : (s.setDt b).faultKind = s.faultKind := rfl
@[simp] theorem State.setDt_faultInfo (b : Byte) : (s.setDt b).faultInfo = s.faultInfo := rfl
@[simp] theorem State.setDt_fb (b : Byte) : (s.setDt b).fb = s.fb := rfl
@[simp] theorem State.setDt_env (b : Byte) : (s.setDt b).env = s.env := rfl

/-! ### `setSt` -/

@[simp] theorem State.setSt_cfg (b : Byte) : (s.setSt b).cfg = s.cfg := rfl
@[simp] theorem State.setSt_v (b : Byte) : (s.setSt b).v = s.v := rfl
@[simp] theorem State.setSt_i (b : Byte) : (s.setSt b).i = s.i := rfl
@[simp] theorem State.setSt_pc (b : Byte) : (s.setSt b).pc = s.pc := rfl
@[simp] theorem State.setSt_dt (b : Byte) : (s.setSt b).dt = s.dt := rfl
@[simp] theorem State.setSt_st (b : Byte) : (s.setSt b).st = b := rfl
@[simp] theorem State.setSt_stack (b : Byte) : (s.setSt b).stack = s.stack := rfl
@[simp] theorem State.setSt_sp (b : Byte) : (s.setSt b).sp = s.sp := rfl
@[simp] theorem State.setSt_mem (b : Byte) : (s.setSt b).mem = s.mem := rfl
@[simp] theorem State.setSt_run (b : Byte) : (s.setSt b).run = s.run := rfl
@[simp] theorem State.setSt_icount (b : Byte) : (s.setSt b).icount = s.icount := rfl
@[simp] theorem State.setSt_tickDue (b : Byte) : (s.setSt b).tickDue = s.tickDue := rfl
@[simp] theorem State.setSt_audioOn (b : Byte) : (s.setSt b).audioOn = (b != 0) := rfl
@[simp] theorem State.setSt_faultKind (b : Byte) : (s.setSt b).faultKind = s.faultKind := rfl
@[simp] theorem State.setSt_faultInfo (b : Byte) : (s.setSt b).faultInfo = s.faultInfo := rfl
@[simp] theorem State.setSt_fb (b : Byte) : (s.setSt b).fb = s.fb := rfl
@[simp] theorem State.setSt_env (b : Byte) : (s.setSt b).env = s.env := rfl

/-! ### `raise` -/

@[simp] theorem State.raise_cfg (f : FaultRecord) : (s.raise f).cfg = s.cfg := rfl
@[simp] theorem State.raise_v (f : FaultRecord) : (s.raise f).v = s.v := rfl
@[simp] theorem State.raise_i (f : FaultRecord) : (s.raise f).i = s.i := rfl
@[simp] theorem State.raise_pc (f : FaultRecord) : (s.raise f).pc = s.pc := rfl
@[simp] theorem State.raise_dt (f : FaultRecord) : (s.raise f).dt = s.dt := rfl
@[simp] theorem State.raise_st (f : FaultRecord) : (s.raise f).st = s.st := rfl
@[simp] theorem State.raise_stack (f : FaultRecord) : (s.raise f).stack = s.stack := rfl
@[simp] theorem State.raise_sp (f : FaultRecord) : (s.raise f).sp = s.sp := rfl
@[simp] theorem State.raise_mem (f : FaultRecord) : (s.raise f).mem = s.mem := rfl
@[simp] theorem State.raise_run (f : FaultRecord) : (s.raise f).run = .faulted := rfl
@[simp] theorem State.raise_icount (f : FaultRecord) : (s.raise f).icount = s.icount := rfl
@[simp] theorem State.raise_tickDue (f : FaultRecord) : (s.raise f).tickDue = s.tickDue := rfl
@[simp] theorem State.raise_audioOn (f : FaultRecord) : (s.raise f).audioOn = s.audioOn := rfl
@[simp] theorem State.raise_faultKind (f : FaultRecord) : (s.raise f).faultKind = some f.kind := rfl
@[simp] theorem State.raise_faultInfo (f : FaultRecord) : (s.raise f).faultInfo = f.info := rfl
@[simp] theorem State.raise_fb (f : FaultRecord) : (s.raise f).fb = s.fb := rfl
@[simp] theorem State.raise_env (f : FaultRecord) : (s.raise f).env = s.env := rfl

/-! ### `pokeBytes` -/

@[simp] theorem State.pokeBytes_cfg (a : Nat) (bs : List Byte) : (s.pokeBytes a bs).cfg = s.cfg := rfl
@[simp] theorem State.pokeBytes_v (a : Nat) (bs : List Byte) : (s.pokeBytes a bs).v = s.v := rfl
@[simp] theorem State.pokeBytes_i (a : Nat) (bs : List Byte) : (s.pokeBytes a bs).i = s.i := rfl
@[simp] theorem State.pokeBytes_pc (a : Nat) (bs : List Byte) : (s.pokeBytes a bs).pc = s.pc := rfl
@[simp] theorem State.pokeBytes_dt (a : Nat) (bs : List Byte) : (s.pokeBytes a bs).dt = s.dt := rfl
@[simp] theorem State.pokeBytes_st (a : Nat) (bs : List Byte) : (s.pokeBytes a bs).st = s.st := rfl
@[simp] theorem State.pokeBytes_stack (a : Nat) (bs : List Byte) : (s.pokeBytes a bs).stack = s.stack := rfl
@[simp] theorem State.pokeBytes_sp (a : Nat) (bs : List Byte) : (s.pokeBytes a bs).sp = s.sp := rfl
@[simp] theorem State.pokeBytes_mem (a : Nat) (bs : List Byte) : (s.pokeBytes a bs).mem = Memory.writeBytes s.cfg.font s.mem a bs := rfl
@[simp] theorem State.pokeBytes_run (a : Nat) (bs : List Byte) : (s.pokeBytes a bs).run = s.run := rfl
@[simp] theorem State.pokeBytes_icount (a : Nat) (bs : List Byte) : (s.pokeBytes a bs).icount = s.icount := rfl
@[simp] theorem State.pokeBytes_tickDue (a : Nat) (bs : List Byte) : (s.pokeBytes a bs).tickDue = s.tickDue := rfl
@[simp] theorem State.pokeBytes_audioOn (a : Nat) (bs : List Byte) : (s.pokeBytes a bs).audioOn = s.audioOn := rfl
@[simp] theorem State.pokeBytes_faultKind (a : Nat) (bs : List Byte) : (s.pokeBytes a bs).faultKind = s.faultKind := rfl
@[simp] theorem State.pokeBytes_faultInfo (a : Nat) (bs : List Byte) : (s.pokeBytes a bs).faultInfo = s.faultInfo := rfl
@[simp] theorem State.pokeBytes_fb (a : Nat) (bs : List Byte) : (s.pokeBytes a bs).fb = s.fb := rfl
@[simp] theorem State.pokeBytes_env (a : Nat) (bs : List Byte) : (s.pokeBytes a bs).env = s.env := rfl

/-! ### `displayClear` -/

@[simp] theorem State.displayClear_cfg : (s.displayClear).cfg = s.cfg := rfl
@[simp] theorem State.displayClear_v : (s.displayClear).v = s.v := rfl
@[simp] theorem State.displayClear_i : (s.displayClear).i = s.i := rfl
@[simp] theorem State.displayClear_pc : (s.displayClear).pc = s.pc := rfl
@[simp] theorem State.displayClear_dt : (s.displayClear).dt = s.dt := rfl
@[simp] theorem State.displayClear_st : (s.displayClear).st = s.st := rfl
@[simp] theorem State.displayClear_stack : (s.displayClear).stack = s.stack := rfl
@[simp] theorem State.displayClear_sp : (s.displayClear).sp = s.sp := rfl
@[simp] theorem State.displayClear_mem : (s.displayClear).mem = s.mem := rfl
@[simp] theorem State.displayClear_run : (s.displayClear).run = s.run := rfl
@[simp] theorem State.displayClear_icount : (s.displayClear).icount = s.icount := rfl
@[simp] theorem State.displayClear_tickDue : (s.displayClear).tickDue = s.tickDue := rfl
@[simp] theorem State.displayClear_audioOn : (s.displayClear).audioOn = s.audioOn := rfl
@[simp] theorem State.displayClear_faultKind : (s.displayClear).faultKind = s.faultKind := rfl
@[simp] theorem State.displayClear_faultInfo : (s.displayClear).faultInfo = s.faultInfo := rfl
@[simp] theorem State.displayClear_fb : (s.displayClear).fb = Vector.replicate 256 0 := rfl
@[simp] theorem State.displayClear_env : (s.displayClear).env = s.env := rfl

/-! ### `quitStep` -/

@[simp] theorem State.quitStep_cfg : (s.quitStep).cfg = s.cfg := rfl
@[simp] theorem State.quitStep_v : (s.quitStep).v = s.v := rfl
@[simp] theorem State.quitStep_i : (s.quitStep).i = s.i := rfl
@[simp] theorem State.quitStep_pc : (s.quitStep).pc = s.pc := rfl
@[simp] theorem State.quitStep_dt : (s.quitStep).dt = s.dt := rfl
@[simp] theorem State.quitStep_st : (s.quitStep).st = s.st := rfl
@[simp] theorem State.quitStep_stack : (s.quitStep).stack = s.stack := rfl
@[simp] theorem State.quitStep_sp : (s.quitStep).sp = s.sp := rfl
@[simp] theorem State.quitStep_mem : (s.quitStep).mem = s.mem := rfl
@[simp] theorem State.quitStep_run : (s.quitStep).run = .halted := rfl
@[simp] theorem State.quitStep_icount : (s.quitStep).icount = s.icount := rfl
@[simp] theorem State.quitStep_tickDue : (s.quitStep).tickDue = s.tickDue := rfl
@[simp] theorem State.quitStep_audioOn : (s.quitStep).audioOn = s.audioOn := rfl
@[simp] theorem State.quitStep_faultKind : (s.quitStep).faultKind = s.faultKind := rfl
@[simp] theorem State.quitStep_faultInfo : (s.quitStep).faultInfo = s.faultInfo := rfl
@[simp] theorem State.quitStep_fb : (s.quitStep).fb = s.fb := rfl
@[simp] theorem State.quitStep_env : (s.quitStep).env = s.env := rfl

/-! ### `tickStep` -/

@[simp] theorem State.tickStep_cfg : (s.tickStep).cfg = s.cfg := rfl
@[simp] theorem State.tickStep_v : (s.tickStep).v = s.v := rfl
@[simp] theorem State.tickStep_i : (s.tickStep).i = s.i := rfl
@[simp] theorem State.tickStep_pc : (s.tickStep).pc = s.pc := rfl
@[simp] theorem State.tickStep_dt : (s.tickStep).dt = countDown s.dt := rfl
@[simp] theorem State.tickStep_st : (s.tickStep).st = countDown s.st := rfl
@[simp] theorem State.tickStep_stack : (s.tickStep).stack = s.stack := rfl
@[simp] theorem State.tickStep_sp : (s.tickStep).sp = s.sp := rfl
@[simp] theorem State.tickStep_mem : (s.tickStep).mem = s.mem := rfl
@[simp] theorem State.tickStep_run : (s.tickStep).run = s.run := rfl
@[simp] theorem State.tickStep_icount : (s.tickStep).icount = 0 := rfl
@[simp] theorem State.tickStep_tickDue : (s.tickStep).tickDue = false := rfl
@[simp] theorem State.tickStep_audioOn : (s.tickStep).audioOn = (countDown s.st != 0) := rfl
@[simp] theorem State.tickStep_faultKind : (s.tickStep).faultKind = s.faultKind := rfl
@[simp] theorem State.tickStep_faultInfo : (s.tickStep).faultInfo = s.faultInfo := rfl
@[simp] theorem State.tickStep_fb : (s.tickStep).fb = s.fb := rfl
@[simp] theorem State.tickStep_env : (s.tickStep).env = s.env := rfl

/-! ### `keyStep` -/

@[simp] theorem State.keyStep_cfg (x : RegIdx) (k : Key) : (s.keyStep x k).cfg = s.cfg := rfl
@[simp] theorem State.keyStep_v (x : RegIdx) (k : Key) : (s.keyStep x k).v = s.v.set x.val (BitVec.ofNat 8 k.val) := rfl
@[simp] theorem State.keyStep_i (x : RegIdx) (k : Key) : (s.keyStep x k).i = s.i := rfl
@[simp] theorem State.keyStep_pc (x : RegIdx) (k : Key) : (s.keyStep x k).pc = s.pc := rfl
@[simp] theorem State.keyStep_dt (x : RegIdx) (k : Key) : (s.keyStep x k).dt = s.dt := rfl
@[simp] theorem State.keyStep_st (x : RegIdx) (k : Key) : (s.keyStep x k).st = s.st := rfl
@[simp] theorem State.keyStep_stack (x : RegIdx) (k : Key) : (s.keyStep x k).stack = s.stack := rfl
@[simp] theorem State.keyStep_sp (x : RegIdx) (k : Key) : (s.keyStep x k).sp = s.sp := rfl
@[simp] theorem State.keyStep_mem (x : RegIdx) (k : Key) : (s.keyStep x k).mem = s.mem := rfl
@[simp] theorem State.keyStep_run (x : RegIdx) (k : Key) : (s.keyStep x k).run = .running := rfl
@[simp] theorem State.keyStep_icount (x : RegIdx) (k : Key) : (s.keyStep x k).icount = s.icount := rfl
@[simp] theorem State.keyStep_tickDue (x : RegIdx) (k : Key) : (s.keyStep x k).tickDue = s.tickDue := rfl
@[simp] theorem State.keyStep_audioOn (x : RegIdx) (k : Key) : (s.keyStep x k).audioOn = s.audioOn := rfl
@[simp] theorem State.keyStep_faultKind (x : RegIdx) (k : Key) : (s.keyStep x k).faultKind = s.faultKind := rfl
@[simp] theorem State.keyStep_faultInfo (x : RegIdx) (k : Key) : (s.keyStep x k).faultInfo = s.faultInfo := rfl
@[simp] theorem State.keyStep_fb (x : RegIdx) (k : Key) : (s.keyStep x k).fb = s.fb := rfl
@[simp] theorem State.keyStep_env (x : RegIdx) (k : Key) : (s.keyStep x k).env = s.env := rfl

/-! ### `advancePastFetch` -/

@[simp] theorem State.advancePastFetch_cfg : (s.advancePastFetch).cfg = s.cfg := rfl
@[simp] theorem State.advancePastFetch_v : (s.advancePastFetch).v = s.v := rfl
@[simp] theorem State.advancePastFetch_i : (s.advancePastFetch).i = s.i := rfl
@[simp] theorem State.advancePastFetch_pc : (s.advancePastFetch).pc = pcPlusTwo s.pc := rfl
@[simp] theorem State.advancePastFetch_dt : (s.advancePastFetch).dt = s.dt := rfl
@[simp] theorem State.advancePastFetch_st : (s.advancePastFetch).st = s.st := rfl
@[simp] theorem State.advancePastFetch_stack : (s.advancePastFetch).stack = s.stack := rfl
@[simp] theorem State.advancePastFetch_sp : (s.advancePastFetch).sp = s.sp := rfl
@[simp] theorem State.advancePastFetch_mem : (s.advancePastFetch).mem = s.mem := rfl
@[simp] theorem State.advancePastFetch_run : (s.advancePastFetch).run = s.run := rfl
@[simp] theorem State.advancePastFetch_icount : (s.advancePastFetch).icount = s.icount + 1 := rfl
@[simp] theorem State.advancePastFetch_tickDue : (s.advancePastFetch).tickDue = s.tickDue := rfl
@[simp] theorem State.advancePastFetch_audioOn : (s.advancePastFetch).audioOn = s.audioOn := rfl
@[simp] theorem State.advancePastFetch_faultKind : (s.advancePastFetch).faultKind = s.faultKind := rfl
@[simp] theorem State.advancePastFetch_faultInfo : (s.advancePastFetch).faultInfo = s.faultInfo := rfl
@[simp] theorem State.advancePastFetch_fb : (s.advancePastFetch).fb = s.fb := rfl
@[simp] theorem State.advancePastFetch_env : (s.advancePastFetch).env = s.env := rfl

/-! ### `sample` -/

@[simp] theorem State.sample_cfg : (s.sample).cfg = s.cfg := rfl
@[simp] theorem State.sample_v : (s.sample).v = s.v := rfl
@[simp] theorem State.sample_i : (s.sample).i = s.i := rfl
@[simp] theorem State.sample_pc : (s.sample).pc = s.pc := rfl
@[simp] theorem State.sample_dt : (s.sample).dt = s.dt := rfl
@[simp] theorem State.sample_st : (s.sample).st = s.st := rfl
@[simp] theorem State.sample_stack : (s.sample).stack = s.stack := rfl
@[simp] theorem State.sample_sp : (s.sample).sp = s.sp := rfl
@[simp] theorem State.sample_mem : (s.sample).mem = s.mem := rfl
@[simp] theorem State.sample_run : (s.sample).run = s.run := rfl
@[simp] theorem State.sample_icount : (s.sample).icount = s.icount := rfl
@[simp] theorem State.sample_tickDue : (s.sample).tickDue = (s.tickDue || s.env.upcoming.tick) := rfl
@[simp] theorem State.sample_audioOn : (s.sample).audioOn = s.audioOn := rfl
@[simp] theorem State.sample_faultKind : (s.sample).faultKind = s.faultKind := rfl
@[simp] theorem State.sample_faultInfo : (s.sample).faultInfo = s.faultInfo := rfl
@[simp] theorem State.sample_fb : (s.sample).fb = s.fb := rfl
@[simp] theorem State.sample_env : (s.sample).env = s.env.advance := rfl

/-! ### `displayUpdate` -/

@[simp] theorem State.displayUpdate_cfg (ov : Vector Byte 256) : (s.displayUpdate ov).1.cfg = s.cfg := rfl
@[simp] theorem State.displayUpdate_v (ov : Vector Byte 256) : (s.displayUpdate ov).1.v = s.v := rfl
@[simp] theorem State.displayUpdate_i (ov : Vector Byte 256) : (s.displayUpdate ov).1.i = s.i := rfl
@[simp] theorem State.displayUpdate_pc (ov : Vector Byte 256) : (s.displayUpdate ov).1.pc = s.pc := rfl
@[simp] theorem State.displayUpdate_dt (ov : Vector Byte 256) : (s.displayUpdate ov).1.dt = s.dt := rfl
@[simp] theorem State.displayUpdate_st (ov : Vector Byte 256) : (s.displayUpdate ov).1.st = s.st := rfl
@[simp] theorem State.displayUpdate_stack (ov : Vector Byte 256) : (s.displayUpdate ov).1.stack = s.stack := rfl
@[simp] theorem State.displayUpdate_sp (ov : Vector Byte 256) : (s.displayUpdate ov).1.sp = s.sp := rfl
@[simp] theorem State.displayUpdate_mem (ov : Vector Byte 256) : (s.displayUpdate ov).1.mem = s.mem := rfl
@[simp] theorem State.displayUpdate_run (ov : Vector Byte 256) : (s.displayUpdate ov).1.run = s.run := rfl
@[simp] theorem State.displayUpdate_icount (ov : Vector Byte 256) : (s.displayUpdate ov).1.icount = s.icount := rfl
@[simp] theorem State.displayUpdate_tickDue (ov : Vector Byte 256) : (s.displayUpdate ov).1.tickDue = s.tickDue := rfl
@[simp] theorem State.displayUpdate_audioOn (ov : Vector Byte 256) : (s.displayUpdate ov).1.audioOn = s.audioOn := rfl
@[simp] theorem State.displayUpdate_faultKind (ov : Vector Byte 256) : (s.displayUpdate ov).1.faultKind = s.faultKind := rfl
@[simp] theorem State.displayUpdate_faultInfo (ov : Vector Byte 256) : (s.displayUpdate ov).1.faultInfo = s.faultInfo := rfl
@[simp] theorem State.displayUpdate_fb (ov : Vector Byte 256) : (s.displayUpdate ov).1.fb = composited s.fb ov := rfl
@[simp] theorem State.displayUpdate_env (ov : Vector Byte 256) : (s.displayUpdate ov).1.env = s.env := rfl
@[simp] theorem State.displayUpdate_collided (ov : Vector Byte 256) : (s.displayUpdate ov).2 = collides s.fb ov := rfl

/-! ### `setFlag` and the two writes of R132 are register writes -/

@[simp] theorem State.setFlag_cfg (c : Bool) : (s.setFlag c).cfg = s.cfg := rfl
@[simp] theorem State.setFlag_v (c : Bool) : (s.setFlag c).v = s.v.set flagReg.val (flagByte c) := rfl
@[simp] theorem State.setFlag_i (c : Bool) : (s.setFlag c).i = s.i := rfl
@[simp] theorem State.setFlag_pc (c : Bool) : (s.setFlag c).pc = s.pc := rfl
@[simp] theorem State.setFlag_dt (c : Bool) : (s.setFlag c).dt = s.dt := rfl
@[simp] theorem State.setFlag_st (c : Bool) : (s.setFlag c).st = s.st := rfl
@[simp] theorem State.setFlag_stack (c : Bool) : (s.setFlag c).stack = s.stack := rfl
@[simp] theorem State.setFlag_sp (c : Bool) : (s.setFlag c).sp = s.sp := rfl
@[simp] theorem State.setFlag_mem (c : Bool) : (s.setFlag c).mem = s.mem := rfl
@[simp] theorem State.setFlag_run (c : Bool) : (s.setFlag c).run = s.run := rfl
@[simp] theorem State.setFlag_icount (c : Bool) : (s.setFlag c).icount = s.icount := rfl
@[simp] theorem State.setFlag_tickDue (c : Bool) : (s.setFlag c).tickDue = s.tickDue := rfl
@[simp] theorem State.setFlag_audioOn (c : Bool) : (s.setFlag c).audioOn = s.audioOn := rfl
@[simp] theorem State.setFlag_faultKind (c : Bool) : (s.setFlag c).faultKind = s.faultKind := rfl
@[simp] theorem State.setFlag_faultInfo (c : Bool) : (s.setFlag c).faultInfo = s.faultInfo := rfl
@[simp] theorem State.setFlag_fb (c : Bool) : (s.setFlag c).fb = s.fb := rfl
@[simp] theorem State.setFlag_env (c : Bool) : (s.setFlag c).env = s.env := rfl
@[simp] theorem State.setResultThenFlag_cfg (x : RegIdx) (r : Byte) (c : Bool) : (s.setResultThenFlag x r c).cfg = s.cfg := rfl
@[simp] theorem State.setResultThenFlag_v (x : RegIdx) (r : Byte) (c : Bool) : (s.setResultThenFlag x r c).v = (s.v.set x.val r).set flagReg.val (flagByte c) := rfl
@[simp] theorem State.setResultThenFlag_i (x : RegIdx) (r : Byte) (c : Bool) : (s.setResultThenFlag x r c).i = s.i := rfl
@[simp] theorem State.setResultThenFlag_pc (x : RegIdx) (r : Byte) (c : Bool) : (s.setResultThenFlag x r c).pc = s.pc := rfl
@[simp] theorem State.setResultThenFlag_dt (x : RegIdx) (r : Byte) (c : Bool) : (s.setResultThenFlag x r c).dt = s.dt := rfl
@[simp] theorem State.setResultThenFlag_st (x : RegIdx) (r : Byte) (c : Bool) : (s.setResultThenFlag x r c).st = s.st := rfl
@[simp] theorem State.setResultThenFlag_stack (x : RegIdx) (r : Byte) (c : Bool) : (s.setResultThenFlag x r c).stack = s.stack := rfl
@[simp] theorem State.setResultThenFlag_sp (x : RegIdx) (r : Byte) (c : Bool) : (s.setResultThenFlag x r c).sp = s.sp := rfl
@[simp] theorem State.setResultThenFlag_mem (x : RegIdx) (r : Byte) (c : Bool) : (s.setResultThenFlag x r c).mem = s.mem := rfl
@[simp] theorem State.setResultThenFlag_run (x : RegIdx) (r : Byte) (c : Bool) : (s.setResultThenFlag x r c).run = s.run := rfl
@[simp] theorem State.setResultThenFlag_icount (x : RegIdx) (r : Byte) (c : Bool) : (s.setResultThenFlag x r c).icount = s.icount := rfl
@[simp] theorem State.setResultThenFlag_tickDue (x : RegIdx) (r : Byte) (c : Bool) : (s.setResultThenFlag x r c).tickDue = s.tickDue := rfl
@[simp] theorem State.setResultThenFlag_audioOn (x : RegIdx) (r : Byte) (c : Bool) : (s.setResultThenFlag x r c).audioOn = s.audioOn := rfl
@[simp] theorem State.setResultThenFlag_faultKind (x : RegIdx) (r : Byte) (c : Bool) : (s.setResultThenFlag x r c).faultKind = s.faultKind := rfl
@[simp] theorem State.setResultThenFlag_faultInfo (x : RegIdx) (r : Byte) (c : Bool) : (s.setResultThenFlag x r c).faultInfo = s.faultInfo := rfl
@[simp] theorem State.setResultThenFlag_fb (x : RegIdx) (r : Byte) (c : Bool) : (s.setResultThenFlag x r c).fb = s.fb := rfl
@[simp] theorem State.setResultThenFlag_env (x : RegIdx) (r : Byte) (c : Bool) : (s.setResultThenFlag x r c).env = s.env := rfl

/-! ### What reading a register or a byte of memory depends on -/

theorem State.getV_eq_of_v {s t : State} (h : t.v = s.v) (x : RegIdx) : t.getV x = s.getV x := by
  simp [State.getV, h]

theorem State.peek_eq_of_mem {s t : State} (hc : t.cfg = s.cfg) (hm : t.mem = s.mem) (a : Nat) : t.peek a = s.peek a := by
  simp [State.peek, hc, hm]

@[simp] theorem State.getV_setV (x r : RegIdx) (b : Byte) :
    (s.setV x b).getV r = if r = x then b else s.getV r := by
  simp only [State.getV, State.setV_v, Vector.getElem_set, Fin.ext_iff, eq_comm]

@[simp] theorem State.getV_setFlag (r : RegIdx) (c : Bool) :
    (s.setFlag c).getV r = if r = flagReg then flagByte c else s.getV r := State.getV_setV s flagReg r _

theorem State.getV_setResultThenFlag (x r : RegIdx) (b : Byte) (c : Bool) :
    (s.setResultThenFlag x b c).getV r =
      if r = flagReg then flagByte c else if r = x then b else s.getV r := by
  simp [State.setResultThenFlag]

@[simp] theorem State.setV_eta (x : RegIdx) (b : Byte) : { s with v := (s.setV x b).v } = s.setV x b := rfl

/-- A file of registers is what its reads are. -/
theorem vRegs_ext {v w : Vector Byte 16} (h : ∀ r : RegIdx, v[r.val] = w[r.val]) : v = w :=
  Vector.ext fun j hj => h ⟨j, hj⟩

end Sys2Proof.Machine
end

