-- ==== Sys2Proof/Laws/Display.lean ====
section
/-! SUPPORT. The display port and the overlay of a sprite, byte by byte and pixel by pixel (R33, R162, R163). -/

namespace Sys2Proof.Machine

/-! ### `DisplayUpdate` byte by byte (R163) -/

theorem composited_getElem (fb ov : Vector Byte 256) (j : Nat) (hj : j < 256) :
    (composited fb ov)[j] = fb[j] ^^^ ov[j] := by
  simp [composited]

theorem pixelTurnedOff_iff (old o : Byte) : pixelTurnedOff old (old ^^^ o) = true ↔ old &&& o ≠ 0 := by
  have h : old &&& (old ^^^ o) = old ↔ old &&& o = 0 := by
    constructor
    · intro h
      ext j hj
      have := congrArg (fun w => w[j]) h
      simp only [BitVec.getElem_and, BitVec.getElem_xor] at this ⊢
      revert this
      cases old[j] <;> cases o[j] <;> simp
    · intro h
      ext j hj
      have := congrArg (fun w => w[j]) h
      simp only [BitVec.getElem_and, BitVec.getElem_xor, BitVec.getElem_zero, BitVec.ofNat_eq_ofNat] at this ⊢
      revert this
      cases old[j] <;> cases o[j] <;> simp
  simp [pixelTurnedOff, h]

theorem collides_iff (fb ov : Vector Byte 256) :
    collides fb ov = true ↔ ∃ j : Fin 256, fb[j.val] &&& ov[j.val] ≠ 0 := by
  unfold collides
  rw [List.any_eq_true]
  constructor
  · rintro ⟨b, hb, ht⟩
    obtain ⟨j, hj, rfl⟩ := List.mem_iff_getElem.1 hb
    have hj' : j < 256 := by simpa using hj
    refine ⟨⟨j, hj'⟩, (pixelTurnedOff_iff _ _).1 ?_⟩
    simpa using ht
  · rintro ⟨j, hj⟩
    refine ⟨true, List.mem_iff_getElem.2 ⟨j.val, by simp, ?_⟩, rfl⟩
    rw [List.getElem_zipWith]
    exact (pixelTurnedOff_iff _ _).2 hj

/-! ### `DisplayUpdate` pixel by pixel (R33) -/

theorem pixel_composited (fb ov : Vector Byte 256) (col : Fin 64) (row : Fin 32) :
    pixel (composited fb ov) col row = (pixel fb col row ^^ pixel ov col row) := by
  simp [pixel, composited_getElem]

/-- Two displays with the same pixels are equal. -/
theorem pixel_ext {fb ov : Vector Byte 256} (h : ∀ col row, pixel fb col row = pixel ov col row) : fb = ov := by
  refine Vector.ext fun j hj => BitVec.eq_of_getLsbD_eq fun k hk => ?_
  have := h ⟨j % 8 * 8 + (7 - k), by omega⟩ ⟨j / 8, by omega⟩
  simp only [pixel, show j / 8 * 8 + (j % 8 * 8 + (7 - k)) / 8 = j by omega,
    show 7 - (j % 8 * 8 + (7 - k)) % 8 = k by omega] at this
  exact this

theorem collides_iff_pixel (fb ov : Vector Byte 256) :
    collides fb ov = true ↔ ∃ col row, pixel fb col row = true ∧ pixel ov col row = true := by
  rw [collides_iff]
  constructor
  · rintro ⟨⟨j, hj⟩, hne⟩
    have hbit : ∃ k, k < 8 ∧ (fb[j] &&& ov[j]).getLsbD k = true := by
      by_contra hnone
      refine hne (BitVec.eq_of_getLsbD_eq fun k hk => ?_)
      have : ¬ (fb[j] &&& ov[j]).getLsbD k = true := fun h => hnone ⟨k, hk, h⟩
      simpa using this
    obtain ⟨k, hk, hb⟩ := hbit
    rw [BitVec.getLsbD_and, Bool.and_eq_true] at hb
    refine ⟨⟨j % 8 * 8 + (7 - k), by omega⟩, ⟨j / 8, by omega⟩, ?_⟩
    simp only [pixel, show j / 8 * 8 + (j % 8 * 8 + (7 - k)) / 8 = j by omega,
      show 7 - (j % 8 * 8 + (7 - k)) % 8 = k by omega]
    exact hb
  · rintro ⟨col, row, h1, h2⟩
    refine ⟨⟨row.val * 8 + col.val / 8, by omega⟩, fun h0 => ?_⟩
    have hb := congrArg (fun w => w.getLsbD (7 - col.val % 8)) h0
    simp only [pixel] at h1 h2
    simp [h1, h2] at hb

theorem pixel_blank (col : Fin 64) (row : Fin 32) : pixel (Vector.replicate 256 0) col row = false := by
  simp [pixel]

/-! ### The overlay (R162) -/

/-- The pixel of one sprite byte at a screen column: bit 7 at column `xs`, the next bits to its right, modulo 64. -/
def spriteBit (xs : Fin 64) (b : Byte) (col : Fin 64) : Bool :=
  decide ((col.val + 64 - xs.val) % 64 < 8) && b.getLsbD (7 - (col.val + 64 - xs.val) % 64)

theorem spriteBit_iff (xs : Fin 64) (b : Byte) (col : Fin 64) :
    spriteBit xs b col = true ↔ ∃ j, j < 8 ∧ col.val = (xs.val + j) % 64 ∧ b.getLsbD (7 - j) = true := by
  simp only [spriteBit, Bool.and_eq_true, decide_eq_true_eq]
  constructor
  · rintro ⟨h, hb⟩
    exact ⟨_, h, by omega, hb⟩
  · rintro ⟨j, hj, hc, hb⟩
    have : (col.val + 64 - xs.val) % 64 = j := by omega
    rw [this]
    exact ⟨hj, hb⟩

theorem overlayByte_getElem (xs : Fin 64) (row : Fin 32) (b : Byte) (ov : Vector Byte 256) (j : Nat) (hj : j < 256) :
    (overlayByte xs row b ov)[j] =
      if row.val * 8 + (xs.val / 8 + 1) % 8 = j then b <<< (8 - xs.val % 8)
      else if row.val * 8 + xs.val / 8 = j then b >>> (xs.val % 8) else ov[j] := by
  simp only [overlayByte, Vector.getElem_set]

/-- One sprite byte drawn into a row that was blank. -/
theorem pixel_overlayByte (xs : Fin 64) (row : Fin 32) (b : Byte) (ov : Vector Byte 256) (col : Fin 64) (r : Fin 32)
    (hblank : ∀ c, pixel ov c row = false) :
    pixel (overlayByte xs row b ov) col r = if r = row then spriteBit xs b col else pixel ov col r := by
  simp only [pixel, overlayByte_getElem]
  by_cases hr : r = row
  · subst hr
    rw [if_pos rfl]
    have hz := hblank col
    simp only [pixel] at hz
    simp only [spriteBit]
    by_cases h1 : (xs.val / 8 + 1) % 8 = col.val / 8
    · rw [if_pos (by omega), BitVec.getLsbD_shiftLeft]
      by_cases h : xs.val % 8 ≤ col.val % 8
      · rw [show decide ((col.val + 64 - xs.val) % 64 < 8) = false by rw [decide_eq_false_iff_not]; omega]
        simp only [show 7 - col.val % 8 < 8 - xs.val % 8 by omega, decide_true, Bool.not_true, Bool.and_false,
          Bool.false_and]
      · rw [show decide ((col.val + 64 - xs.val) % 64 < 8) = true by rw [decide_eq_true_eq]; omega]
        rw [show 7 - (col.val + 64 - xs.val) % 64 = 7 - col.val % 8 - (8 - xs.val % 8) by omega]
        simp only [show 7 - col.val % 8 < 8 by omega, show ¬ 7 - col.val % 8 < 8 - xs.val % 8 by omega, decide_true,
          decide_false, Bool.not_false, Bool.and_true, Bool.true_and]
    · rw [if_neg (by omega)]
      by_cases h0 : xs.val / 8 = col.val / 8
      · rw [if_pos (by omega), BitVec.getLsbD_ushiftRight]
        by_cases h : xs.val % 8 ≤ col.val % 8
        · rw [show decide ((col.val + 64 - xs.val) % 64 < 8) = true by rw [decide_eq_true_eq]; omega, Bool.true_and]
          congr 1
          omega
        · rw [show decide ((col.val + 64 - xs.val) % 64 < 8) = false by rw [decide_eq_false_iff_not]; omega,
            Bool.false_and]
          exact BitVec.getLsbD_of_ge _ _ (by omega)
      · rw [if_neg (by omega), hz,
          show decide ((col.val + 64 - xs.val) % 64 < 8) = false by rw [decide_eq_false_iff_not]; omega, Bool.false_and]
  · have hne : r.val ≠ row.val := fun h => hr (Fin.ext h)
    rw [if_neg hr, if_neg (by omega), if_neg (by omega)]

/-- The pixel of a column of sprite rows at a screen position. -/
def rowsBit (xs : Fin 64) (ys : Fin 32) : Nat → List Byte → Fin 64 → Fin 32 → Bool
  | _, [], _, _ => false
  | r, b :: bs, col, row =>
    if row = Fin.ofNat 32 (ys.val + r) then spriteBit xs b col else rowsBit xs ys (r + 1) bs col row

theorem rowsBit_iff (xs : Fin 64) (ys : Fin 32) (r : Nat) (bs : List Byte) (h : r + bs.length ≤ 32) (col : Fin 64)
    (row : Fin 32) : rowsBit xs ys r bs col row = true ↔
      ∃ k, ∃ hk : k < bs.length, row.val = (ys.val + r + k) % 32 ∧ spriteBit xs bs[k] col = true := by
  induction bs generalizing r with
  | nil => simp [rowsBit]
  | cons b bs ih =>
    simp only [List.length_cons] at h
    have hrow : row = Fin.ofNat 32 (ys.val + r) ↔ row.val = (ys.val + r) % 32 := by
      rw [Fin.ext_iff]
      rfl
    rw [rowsBit]
    split
    · rename_i he
      rw [hrow] at he
      constructor
      · intro hb
        exact ⟨0, by simp, by omega, by simpa using hb⟩
      · rintro ⟨k, hk, hr, hb⟩
        simp only [List.length_cons] at hk
        have : k = 0 := by omega
        subst this
        simpa using hb
    · rename_i he
      rw [hrow] at he
      rw [ih (r + 1) (by omega)]
      constructor
      · rintro ⟨k, hk, hr, hb⟩
        exact ⟨k + 1, by simpa using hk, by omega, by simpa using hb⟩
      · rintro ⟨k, hk, hr, hb⟩
        cases k with
        | zero => exact absurd hr (by omega)
        | succ k => exact ⟨k, by simpa using hk, by omega, by simpa using hb⟩

/-- Sprite rows drawn into rows that were blank, no two of them the same row. -/
theorem pixel_overlayRows (xs : Fin 64) (ys : Fin 32) (r : Nat) (bs : List Byte) (ov : Vector Byte 256)
    (h : r + bs.length ≤ 32)
    (hblank : ∀ k, k < bs.length → ∀ c, pixel ov c (Fin.ofNat 32 (ys.val + r + k)) = false) (col : Fin 64)
    (row : Fin 32) :
    pixel (overlayRows xs ys r bs ov) col row = (pixel ov col row || rowsBit xs ys r bs col row) := by
  induction bs generalizing r ov with
  | nil => simp [overlayRows, rowsBit]
  | cons b bs ih =>
    simp only [List.length_cons] at h hblank
    have h0 : ∀ c, pixel ov c (Fin.ofNat 32 (ys.val + r)) = false := hblank 0 (by omega)
    rw [overlayRows, ih (r + 1) _ (by omega)]
    · rw [pixel_overlayByte _ _ _ _ _ _ h0, rowsBit]
      split
      · rename_i he
        have : rowsBit xs ys (r + 1) bs col row = false := by
          rw [← Bool.not_eq_true, rowsBit_iff _ _ _ _ (by omega)]
          rintro ⟨k, hk, hr, -⟩
          rw [Fin.ext_iff] at he
          simp only [Fin.ofNat] at he
          omega
        rw [this, Bool.or_false, he, h0, Bool.false_or]
      · rfl
    · intro k hk c
      rw [pixel_overlayByte _ _ _ _ _ _ h0, if_neg]
      · have := hblank (k + 1) (by omega) c
        rwa [show ys.val + (r + 1) + k = ys.val + r + (k + 1) by omega]
      · rw [Fin.ext_iff]
        simp only [Fin.ofNat]
        omega

/-- R162: pixel `j` of sprite row `r` lands at column `(xs + j) mod 64`, row `(ys + r) mod 32`, and nothing else is set. -/
theorem pixel_overlay (xs : Fin 64) (ys : Fin 32) (spr : List Byte) (h : spr.length ≤ 32) (col : Fin 64) (row : Fin 32) :
    pixel (overlay xs ys spr) col row = true ↔
      ∃ r j, ∃ hr : r < spr.length, j < 8 ∧ row.val = (ys.val + r) % 32 ∧ col.val = (xs.val + j) % 64 ∧
        spr[r].getLsbD (7 - j) = true := by
  unfold overlay
  rw [pixel_overlayRows _ _ _ _ _ (by omega) (fun _ _ _ => pixel_blank _ _), pixel_blank, Bool.false_or,
    rowsBit_iff _ _ _ _ (by omega)]
  constructor
  · rintro ⟨r, hr, hrow, hb⟩
    obtain ⟨j, hj, hc, hbit⟩ := (spriteBit_iff _ _ _).1 hb
    exact ⟨r, j, hr, hj, by omega, hc, hbit⟩
  · rintro ⟨r, j, hr, hj, hrow, hc, hbit⟩
    exact ⟨r, hr, by omega, (spriteBit_iff _ _ _).2 ⟨j, hj, hc, hbit⟩⟩

end Sys2Proof.Machine
end

