-- ==== Sys2Proof/Laws/Memory.lean ====
section
/-! SUPPORT. Memory as a list of cells: read after write, the frame of a write, and that every write keeps the canonical
form, so that equal memories are equal data. -/

namespace Sys2Proof.Machine

variable {font : Font}

/-! ### Reading and writing one byte -/

@[simp] theorem Memory.read_nil (a : Nat) : Memory.read font [] a = Memory.background font a := rfl

theorem Memory.read_cons (b : Nat) (w : Byte) (rest : Memory) (a : Nat) :
    Memory.read font ((b, w) :: rest) a = if a = b then w else Memory.read font rest a := rfl

/-- Below its first address a memory reads as the background. -/
theorem Memory.read_of_startsAbove {m : Memory} {a b : Nat} (hw : Memory.wf font m = true)
    (hs : Memory.startsAbove a m = true) (hb : b ≤ a) : Memory.read font m b = Memory.background font b := by
  induction m generalizing a with
  | nil => rfl
  | cons cell rest ih =>
    obtain ⟨c, w⟩ := cell
    simp only [Memory.startsAbove, decide_eq_true_eq] at hs
    simp only [Memory.wf, Bool.and_eq_true, decide_eq_true_eq] at hw
    rw [Memory.read_cons, if_neg (by omega)]
    exact ih hw.2 hw.1.2 (by omega)

/-- A written byte reads back; a write leaves every other byte alone. -/
theorem Memory.read_write {m : Memory} (hw : Memory.wf font m = true) (a : Nat) (v : Byte) (b : Nat) :
    Memory.read font (Memory.write font a v m) b = if b = a then v else Memory.read font m b := by
  induction m with
  | nil =>
    unfold Memory.write
    split
    · simp only [Memory.read_nil]
      split <;> simp_all
    · rw [Memory.read_cons]
  | cons cell rest ih =>
    obtain ⟨c, w⟩ := cell
    simp only [Memory.wf, Bool.and_eq_true, decide_eq_true_eq] at hw
    have hb := Memory.read_of_startsAbove (b := a) hw.2 hw.1.2
    unfold Memory.write
    split
    · have hrest : Memory.read font ((c, w) :: rest) a = Memory.background font a := by
        rw [Memory.read_cons, if_neg (by omega)]
        exact hb (by omega)
      split
      · split <;> simp_all
      · rw [Memory.read_cons]
    · split
      · rename_i hac
        subst hac
        split
        · rw [Memory.read_cons]
          split
          · simp_all
          · rfl
        · simp only [Memory.read_cons]
          split <;> rfl
      · rw [Memory.read_cons, Memory.read_cons, ih hw.2]
        split <;> split <;> first | rfl | omega

theorem Memory.startsAbove_of_lt {m : Memory} {a b : Nat} (h : Memory.startsAbove b m = true) (hab : a ≤ b) :
    Memory.startsAbove a m = true := by
  cases m with
  | nil => rfl
  | cons cell rest =>
    simp only [Memory.startsAbove, decide_eq_true_eq] at h ⊢
    omega

theorem Memory.startsAbove_write {m : Memory} {a c : Nat} (v : Byte) (hm : Memory.startsAbove c m = true) (hca : c < a)
    (hw : Memory.wf font m = true) : Memory.startsAbove c (Memory.write font a v m) = true := by
  cases m with
  | nil =>
    unfold Memory.write
    split <;> simp [Memory.startsAbove, hca]
  | cons cell rest =>
    obtain ⟨b, w⟩ := cell
    simp only [Memory.wf, Bool.and_eq_true, decide_eq_true_eq] at hw
    simp only [Memory.startsAbove, decide_eq_true_eq] at hm
    unfold Memory.write
    split
    · split <;> simp [Memory.startsAbove, hm, hca]
    · split
      · split
        · exact Memory.startsAbove_of_lt hw.1.2 (by omega)
        · simp [Memory.startsAbove, hca]
      · simp [Memory.startsAbove, hm]

/-- A write to an address of the machine keeps the canonical form. -/
theorem Memory.wf_write {m : Memory} (hw : Memory.wf font m = true) {a : Nat} (ha : a < 0x1000) (v : Byte) :
    Memory.wf font (Memory.write font a v m) = true := by
  induction m with
  | nil =>
    unfold Memory.write
    split <;> simp_all [Memory.wf, Memory.startsAbove]
  | cons cell rest ih =>
    obtain ⟨b, w⟩ := cell
    have hw' := hw
    simp only [Memory.wf, Bool.and_eq_true, decide_eq_true_eq] at hw'
    obtain ⟨⟨⟨hb, hne⟩, hs⟩, hr⟩ := hw'
    unfold Memory.write
    split
    · split
      · exact hw
      · simp_all [Memory.wf, Memory.startsAbove]
    · split
      · split
        · exact hr
        · simp_all [Memory.wf]
      · have hlt : b < a := by omega
        simp only [Memory.wf, Bool.and_eq_true, decide_eq_true_eq]
        exact ⟨⟨⟨hb, hne⟩, Memory.startsAbove_write v hs hlt hr⟩, ih hr⟩

/-! ### Writing consecutive bytes -/

@[simp] theorem Memory.writeBytes_nil (m : Memory) (a : Nat) : Memory.writeBytes font m a [] = m := rfl

theorem Memory.writeBytes_cons (m : Memory) (a : Nat) (b : Byte) (bs : List Byte) :
    Memory.writeBytes font m a (b :: bs) = Memory.writeBytes font (Memory.write font a b m) (a + 1) bs := rfl

theorem Memory.wf_writeBytes {m : Memory} (hw : Memory.wf font m = true) (a : Nat) (bs : List Byte)
    (h : a + bs.length ≤ 0x1000) : Memory.wf font (Memory.writeBytes font m a bs) = true := by
  induction bs generalizing m a with
  | nil => exact hw
  | cons b bs ih =>
    simp only [List.length_cons] at h
    exact ih (Memory.wf_write hw (by omega) b) (a + 1) (by omega)

/-- A byte outside the written range reads as before. -/
theorem Memory.read_writeBytes_outside {m : Memory} (hw : Memory.wf font m = true) (a : Nat) (bs : List Byte)
    (h : a + bs.length ≤ 0x1000) (b : Nat) (hb : b < a ∨ a + bs.length ≤ b) :
    Memory.read font (Memory.writeBytes font m a bs) b = Memory.read font m b := by
  induction bs generalizing m a with
  | nil => rfl
  | cons c bs ih =>
    simp only [List.length_cons] at h hb
    rw [Memory.writeBytes_cons, ih (Memory.wf_write hw (by omega) c) (a + 1) (by omega) (by omega),
      Memory.read_write hw, if_neg (by omega)]

/-- The written range reads as what was written. -/
theorem Memory.read_writeBytes_inside {m : Memory} (hw : Memory.wf font m = true) (a : Nat) (bs : List Byte)
    (h : a + bs.length ≤ 0x1000) (j : Nat) (hj : j < bs.length) :
    Memory.read font (Memory.writeBytes font m a bs) (a + j) = bs[j] := by
  induction bs generalizing m a j with
  | nil => simp at hj
  | cons c bs ih =>
    simp only [List.length_cons] at h hj
    have hw' := Memory.wf_write hw (a := a) (by omega) c
    rw [Memory.writeBytes_cons]
    cases j with
    | zero =>
      rw [Memory.read_writeBytes_outside hw' (a + 1) bs (by omega) (a + 0) (by omega), Memory.read_write hw]
      simp
    | succ k =>
      have := ih hw' (a + 1) (by omega) k (by omega)
      rw [show a + (k + 1) = a + 1 + k by omega, this]
      simp

end Sys2Proof.Machine
end

