-- ==== Sys2Proof/Laws/Ops.lean ====
section
/-! SUPPORT. One lemma for each shared operation of the machine, saying once everything it can do. -/

namespace Sys2Proof.Machine

/-! ### Words and flags -/

theorem pcPlusTwo_toNat (pc : Word) : (pcPlusTwo pc).toNat = (pc.toNat + 2) % 65536 := by
  simp [pcPlusTwo]

theorem addByteToWord_toNat (w : Word) (b : Byte) : (addByteToWord w b).toNat = (w.toNat + b.toNat) % 65536 := by
  simp [addByteToWord]

theorem zext16_toNat (b : Byte) : (zext16 b).toNat = b.toNat := by
  have := b.isLt
  simp only [zext16, BitVec.toNat_setWidth]
  omega

theorem zext16_eq (b : Byte) : zext16 b = BitVec.ofNat 16 b.toNat := by
  have := b.isLt
  apply BitVec.eq_of_toNat_eq
  rw [zext16_toNat, BitVec.toNat_ofNat]
  omega

theorem fontAddress_toNat {d : Byte} (h : d.toNat ≤ 0xF) : (fontAddress d).toNat = 0x50 + 5 * d.toNat := by
  simp only [fontAddress, BitVec.toNat_ofNat]
  omega

theorem countDown_toNat (b : Byte) : (countDown b).toNat = b.toNat - 1 := by
  unfold countDown
  split
  · simp_all
  · have h0 : b.toNat ≠ 0 := fun h => ‹¬ b = 0› (BitVec.eq_of_toNat_eq (by simpa using h))
    have := b.isLt
    simp only [BitVec.toNat_sub, BitVec.ofNat_eq_ofNat, BitVec.toNat_ofNat]
    omega

theorem flagByte_cases (f : Bool) : flagByte f = 0 ∨ flagByte f = 1 := by
  cases f <;> simp [flagByte]

theorem fuse_toNat (m l : Byte) : (fuse m l).toNat = m.toNat * 256 + l.toNat := by
  have := m.isLt
  have := l.isLt
  simp only [fuse, BitVec.toNat_ofNat]
  omega

/-! ### The bounds check (R53) -/

theorem accessOk_iff (c : Config) (addr : Word) (len : Nat) :
    Config.accessOk c addr len = true ↔ Config.accLow c ≤ addr.toNat ∧ addr.toNat < 0x1000 ∧ addr.toNat + len ≤ 0x1000 := by
  simp [Config.accessOk]

theorem accLow_le (c : Config) : Config.accLow c ≤ 0x600 := by
  unfold Config.accLow LowBound.addr
  cases c.accBound <;> cases c.low <;> simp

theorem low_addr_cases (l : LowBound) : l.addr = 0x200 ∨ l.addr = 0x600 := by
  cases l <;> simp [LowBound.addr]

/-! ### The checked accessors (R54 to R58) -/

variable (s : State)

theorem memWriteSeq_ok {addr : Word} {bs : List Byte} (h : Config.accessOk s.cfg addr bs.length = true) :
    s.memWriteSeq addr bs = .ok (s.pokeBytes addr.toNat bs) := if_pos h

theorem memWriteSeq_error {addr : Word} {bs : List Byte} (h : Config.accessOk s.cfg addr bs.length ≠ true) :
    s.memWriteSeq addr bs = .error (outOfRange addr) := if_neg h

theorem memReadSeq_ok {addr : Word} {len : Nat} (h : Config.accessOk s.cfg addr len = true) :
    s.memReadSeq addr len = .ok ((List.range len).map fun j => s.peek (addr.toNat + j)) := if_pos h

theorem memReadSeq_error {addr : Word} {len : Nat} (h : Config.accessOk s.cfg addr len ≠ true) :
    s.memReadSeq addr len = .error (outOfRange addr) := if_neg h

theorem fetchWord_ok {addr : Word} (h : Config.accessOk s.cfg addr 2 = true) :
    s.fetchWord addr = .ok (fuse (s.peek addr.toNat) (s.peek (addr.toNat + 1))) := if_pos h

theorem fetchWord_error {addr : Word} (h : Config.accessOk s.cfg addr 2 ≠ true) :
    s.fetchWord addr = .error (outOfRange addr) := if_neg h

/-- Writing consecutive bytes of the machine's memory: the range reads as written, the rest as before, the form is kept. -/
theorem peek_pokeBytes_inside (hw : Memory.wf s.cfg.font s.mem = true) (a : Nat) (bs : List Byte)
    (h : a + bs.length ≤ 0x1000) (j : Nat) (hj : j < bs.length) : (s.pokeBytes a bs).peek (a + j) = bs[j] :=
  Memory.read_writeBytes_inside hw a bs h j hj

theorem peek_pokeBytes_outside (hw : Memory.wf s.cfg.font s.mem = true) (a : Nat) (bs : List Byte)
    (h : a + bs.length ≤ 0x1000) (b : Nat) (hb : b < a ∨ a + bs.length ≤ b) : (s.pokeBytes a bs).peek b = s.peek b :=
  Memory.read_writeBytes_outside hw a bs h b hb

theorem wf_pokeBytes (hw : Memory.wf s.cfg.font s.mem = true) (a : Nat) (bs : List Byte) (h : a + bs.length ≤ 0x1000) :
    Memory.wf (s.pokeBytes a bs).cfg.font (s.pokeBytes a bs).mem = true :=
  Memory.wf_writeBytes hw a bs h

/-! ### Completing or taking the fault (R199, R230) -/

@[simp] theorem orRaise_ok (t : State) : s.orRaise (.ok t) = .next t := rfl

@[simp] theorem orRaise_error (f : FaultRecord) : s.orRaise (.error f) = .next (s.raise f) := rfl

/-- Everything `orRaise` can answer. -/
theorem orRaise_cases (r : Except FaultRecord State) :
    (∃ t, r = .ok t ∧ s.orRaise r = .next t) ∨ ∃ f, r = .error f ∧ s.orRaise r = .next (s.raise f) := by
  cases r with
  | ok t => exact .inl ⟨t, rfl, rfl⟩
  | error f => exact .inr ⟨f, rfl, rfl⟩

/-! ### The call stack (R26) -/

theorem push_ok {w : Word} (h : s.sp.val < 16) :
    s.push w = .ok { s with stack := s.stack.set s.sp.val w, sp := ⟨s.sp.val + 1, by omega⟩ } := dif_pos h

theorem push_error {w : Word} (h : ¬ s.sp.val < 16) : s.push w = .error ⟨.stackOverflow, 0⟩ := dif_neg h

theorem pop_ok (h : 0 < s.sp.val) :
    s.pop = .ok (s.stack[s.sp.val - 1], { s with sp := ⟨s.sp.val - 1, by omega⟩ }) := dif_pos h

theorem pop_error (h : ¬ 0 < s.sp.val) : s.pop = .error ⟨.stackUnderflow, 0⟩ := dif_neg h

/-! ### Register blocks (R144, R145) -/

@[simp] theorem lowRegs_length (x : RegIdx) : (s.lowRegs x).length = x.val + 1 := by
  simp [State.lowRegs]

theorem lowRegs_getElem (x : RegIdx) (j : Nat) (hj : j < (s.lowRegs x).length) :
    (s.lowRegs x)[j] = s.getV (Fin.ofNat 16 j) := by
  simp [State.lowRegs]

/-- Loading registers writes `V` only. -/
theorem loadRegs_eq (s : State) (j : Nat) (bs : List Byte) :
    s.loadRegs j bs = { s with v := (s.loadRegs j bs).v } := by
  induction bs generalizing s j with
  | nil => rfl
  | cons b bs ih =>
    rw [State.loadRegs, ih]
    rfl

/-- A loaded register holds its byte, the others stay. -/
theorem getV_loadRegs (s : State) (j : Nat) (bs : List Byte) (h : j + bs.length ≤ 16) (r : RegIdx) :
    (s.loadRegs j bs).getV r =
      if hr : j ≤ r.val ∧ r.val < j + bs.length then bs[r.val - j]'(by omega) else s.getV r := by
  induction bs generalizing s j with
  | nil =>
    rw [dif_neg (by simp)]
    rfl
  | cons b bs ih =>
    simp only [List.length_cons] at h
    rw [State.loadRegs, ih _ _ (by omega)]
    by_cases h1 : j + 1 ≤ r.val ∧ r.val < j + 1 + bs.length
    · rw [dif_pos h1, dif_pos ⟨by omega, by simp only [List.length_cons]; omega⟩, List.getElem_cons, dif_neg (by omega)]
      congr 1
    · rw [dif_neg h1, State.getV_setV]
      have hj : (Fin.ofNat 16 j).val = j := by
        simp only [Fin.ofNat]
        omega
      by_cases h2 : r.val = j
      · rw [if_pos (Fin.ext (h2.trans hj.symm)), dif_pos ⟨by omega, by simp only [List.length_cons]; omega⟩,
          List.getElem_cons, dif_pos (by omega)]
      · rw [if_neg (fun e => h2 (by rw [e, hj])), dif_neg (by simp only [List.length_cons]; omega)]

end Sys2Proof.Machine
end

