-- ==== Sys2Proof/Laws/Exec.lean ====
section
/-! SUPPORT. What an instruction can do, said once: the inversion of `exec`, one case for each constructor, and which
register reads survive each update. -/

namespace Sys2Proof.Machine

/-- The check of R53 is the predicate the claims use. -/
theorem accessOk_iff_valid (s : State) (addr : Word) (len : Nat) :
    Config.accessOk s.cfg addr len = true ↔ ValidAccess s addr.toNat len := accessOk_iff _ _ _

theorem accessOk_ne_of_not_valid {s : State} {addr : Word} {len : Nat} (h : ¬ ValidAccess s addr.toNat len) :
    Config.accessOk s.cfg addr len ≠ true := fun h' => h ((accessOk_iff_valid _ _ _).1 h')

/-- Everything an instruction can answer, with the guards under which it takes a fault (R199, R230). -/
theorem exec_cases {i : Instr} {s t : State} (h : exec i s = .next t) :
  match i with
  | .cls => t = s.displayClear
  | .ret =>
    (∃ h : 0 < s.sp.val, t = { s with pc := s.stack[s.sp.val - 1], sp := ⟨s.sp.val - 1, by omega⟩ }) ∨
    (s.sp.val = 0 ∧ t = s.raise ⟨.stackUnderflow, 0⟩)
  | .jp a => t = s.jumpTo a
  | .call a =>
    (∃ h : s.sp.val < 16,
      t = { s with pc := a, stack := s.stack.set s.sp.val s.pc, sp := ⟨s.sp.val + 1, by omega⟩ }) ∨
    (s.sp.val = 16 ∧ t = s.raise ⟨.stackOverflow, 0⟩)
  | .seImm _ _ => ∃ c, t = s.skipIf c
  | .sneImm _ _ => ∃ c, t = s.skipIf c
  | .seReg _ _ => ∃ c, t = s.skipIf c
  | .sneReg _ _ => ∃ c, t = s.skipIf c
  | .jpV0 a => t = s.jumpTo (addByteToWord a (s.getV 0))
  | .ldImm x _ => ∃ b, t = s.setV x b
  | .addImm x _ => ∃ b, t = s.setV x b
  | .ldReg x _ => ∃ b, t = s.setV x b
  | .orReg x _ => ∃ b, t = s.setV x b
  | .andReg x _ => ∃ b, t = s.setV x b
  | .xorReg x _ => ∃ b, t = s.setV x b
  | .rnd x _ => ∃ b, t = s.setV x b
  | .ldVxDt x => ∃ b, t = s.setV x b
  | .addReg x _ => ∃ b f, t = s.setResultThenFlag x b f
  | .sub x _ => ∃ b f, t = s.setResultThenFlag x b f
  | .subn x _ => ∃ b f, t = s.setResultThenFlag x b f
  | .shr x _ => ∃ b f, t = s.setResultThenFlag x b f
  | .shl x _ => ∃ b f, t = s.setResultThenFlag x b f
  | .ldI a => t = s.setI a
  | .addI x => t = s.setI (addByteToWord s.i (s.getV x))
  | .ldF x =>
    ((s.getV x).toNat ≤ 0xF ∧ t = s.setI (fontAddress (s.getV x))) ∨
    (0xF < (s.getV x).toNat ∧ t = s.raise ⟨.invalidSpriteDigit, zext16 (s.getV x)⟩)
  | .skp x =>
    ((s.getV x).toNat ≤ 0xF ∧ ∃ c, t = s.skipIf c) ∨
    (0xF < (s.getV x).toNat ∧ t = s.raise ⟨.invalidKey, zext16 (s.getV x)⟩)
  | .sknp x =>
    ((s.getV x).toNat ≤ 0xF ∧ ∃ c, t = s.skipIf c) ∨
    (0xF < (s.getV x).toNat ∧ t = s.raise ⟨.invalidKey, zext16 (s.getV x)⟩)
  | .drw _ _ n =>
    (ValidAccess s s.i.toNat n ∧ ∃ fb f, t = ({ s with fb := fb } : State).setFlag f) ∨
    (¬ ValidAccess s s.i.toNat n ∧ t = s.raise (outOfRange s.i))
  | .ldB x =>
    (ValidAccess s s.i.toNat 3 ∧ t = s.pokeBytes s.i.toNat (bcdDigits (s.getV x))) ∨
    (¬ ValidAccess s s.i.toNat 3 ∧ t = s.raise (outOfRange s.i))
  | .ldMemVx x =>
    (ValidAccess s s.i.toNat (x.val + 1) ∧ t = s.pokeBytes s.i.toNat (s.lowRegs x)) ∨
    (¬ ValidAccess s s.i.toNat (x.val + 1) ∧ t = s.raise (outOfRange s.i))
  | .ldVxMem x =>
    (ValidAccess s s.i.toNat (x.val + 1) ∧ ∃ bs, bs.length = x.val + 1 ∧ t = s.loadRegs 0 bs) ∨
    (¬ ValidAccess s s.i.toNat (x.val + 1) ∧ t = s.raise (outOfRange s.i))
  | .ldVxK x => t = { s with run := .awaitKey x }
  | .ldDtVx x => t = s.setDt (s.getV x)
  | .ldStVx x => t = s.setSt (s.getV x) := by
  have inj {u : State} : (Host.Outcome.next u : Host.Outcome State Fault Refusal) = .next t → t = u := fun h => by
    injection h with h
    exact h.symm
  cases i with
  | cls => exact inj h
  | ret =>
    simp only [exec, execRet] at h
    by_cases hs : 0 < s.sp.val
    · rw [pop_ok s hs] at h; exact .inl ⟨hs, inj h⟩
    · rw [pop_error s hs] at h; exact .inr ⟨by omega, inj h⟩
  | jp a => exact inj h
  | call a =>
    simp only [exec, execCall] at h
    by_cases hs : s.sp.val < 16
    · rw [push_ok s hs] at h; exact .inl ⟨hs, inj h⟩
    · rw [push_error s hs] at h; exact .inr ⟨by omega, inj h⟩
  | seImm _ _ => exact ⟨_, inj h⟩
  | sneImm _ _ => exact ⟨_, inj h⟩
  | seReg _ _ => exact ⟨_, inj h⟩
  | sneReg _ _ => exact ⟨_, inj h⟩
  | jpV0 _ => exact inj h
  | ldImm _ _ => exact ⟨_, inj h⟩
  | addImm _ _ => exact ⟨_, inj h⟩
  | ldReg _ _ => exact ⟨_, inj h⟩
  | orReg _ _ => exact ⟨_, inj h⟩
  | andReg _ _ => exact ⟨_, inj h⟩
  | xorReg _ _ => exact ⟨_, inj h⟩
  | rnd _ _ => exact ⟨_, inj h⟩
  | ldVxDt _ => exact ⟨_, inj h⟩
  | addReg _ _ => exact ⟨_, _, inj h⟩
  | sub _ _ => exact ⟨_, _, inj h⟩
  | subn _ _ => exact ⟨_, _, inj h⟩
  | shr _ _ => exact ⟨_, _, inj h⟩
  | shl _ _ => exact ⟨_, _, inj h⟩
  | ldI _ => exact inj h
  | addI _ => exact inj h
  | ldF x =>
    simp only [exec, execLdF, isNibble] at h
    by_cases hs : (s.getV x).toNat ≤ 0xF
    · simp only [hs, decide_true, if_true] at h; exact .inl ⟨hs, inj h⟩
    · simp only [hs, decide_false] at h; exact .inr ⟨by omega, inj h⟩
  | skp x =>
    simp only [exec, execSkp, isNibble] at h
    by_cases hs : (s.getV x).toNat ≤ 0xF
    · simp only [hs, decide_true, if_true] at h; exact .inl ⟨hs, _, inj h⟩
    · simp only [hs, decide_false] at h; exact .inr ⟨by omega, inj h⟩
  | sknp x =>
    simp only [exec, execSknp, isNibble] at h
    by_cases hs : (s.getV x).toNat ≤ 0xF
    · simp only [hs, decide_true, if_true] at h; exact .inl ⟨hs, _, inj h⟩
    · simp only [hs, decide_false] at h; exact .inr ⟨by omega, inj h⟩
  | drw x y n =>
    simp only [exec, execDrw] at h
    by_cases hv : ValidAccess s s.i.toNat n
    · rw [memReadSeq_ok s ((accessOk_iff_valid ..).2 hv)] at h; exact .inl ⟨hv, _, _, inj h⟩
    · rw [memReadSeq_error s (accessOk_ne_of_not_valid hv)] at h; exact .inr ⟨hv, inj h⟩
  | ldB x =>
    simp only [exec, execLdB] at h
    by_cases hv : ValidAccess s s.i.toNat 3
    · rw [memWriteSeq_ok s (bs := bcdDigits _) ((accessOk_iff_valid ..).2 hv)] at h; exact .inl ⟨hv, inj h⟩
    · rw [memWriteSeq_error s (bs := bcdDigits _) (accessOk_ne_of_not_valid hv)] at h; exact .inr ⟨hv, inj h⟩
  | ldMemVx x =>
    simp only [exec, execLdMemVx] at h
    by_cases hv : ValidAccess s s.i.toNat (x.val + 1)
    · rw [memWriteSeq_ok s (by rw [lowRegs_length]; exact (accessOk_iff_valid ..).2 hv)] at h; exact .inl ⟨hv, inj h⟩
    · rw [memWriteSeq_error s (by rw [lowRegs_length]; exact accessOk_ne_of_not_valid hv)] at h; exact .inr ⟨hv, inj h⟩
  | ldVxMem x =>
    simp only [exec, execLdVxMem] at h
    by_cases hv : ValidAccess s s.i.toNat (x.val + 1)
    · rw [memReadSeq_ok s ((accessOk_iff_valid ..).2 hv)] at h; exact .inl ⟨hv, _, by simp, inj h⟩
    · rw [memReadSeq_error s (accessOk_ne_of_not_valid hv)] at h; exact .inr ⟨hv, inj h⟩
  | ldVxK _ => exact inj h
  | ldDtVx _ => exact inj h
  | ldStVx _ => exact inj h

@[simp] theorem State.getV_raise (s : State) (f : FaultRecord) (r : RegIdx) : (s.raise f).getV r = s.getV r := rfl
@[simp] theorem State.getV_skipIf (s : State) (f : Bool) (r : RegIdx) : (s.skipIf f).getV r = s.getV r := rfl
@[simp] theorem State.getV_setI (s : State) (f : Word) (r : RegIdx) : (s.setI f).getV r = s.getV r := rfl
@[simp] theorem State.getV_setDt (s : State) (f : Byte) (r : RegIdx) : (s.setDt f).getV r = s.getV r := rfl
@[simp] theorem State.getV_setSt (s : State) (f : Byte) (r : RegIdx) : (s.setSt f).getV r = s.getV r := rfl
@[simp] theorem State.getV_jumpTo (s : State) (f : Word) (r : RegIdx) : (s.jumpTo f).getV r = s.getV r := rfl
@[simp] theorem State.getV_displayClear (s : State) (r : RegIdx) : (s.displayClear).getV r = s.getV r := rfl
@[simp] theorem State.getV_pokeBytes (s : State) (a : Nat) (b : List Byte) (r : RegIdx) :
    (s.pokeBytes a b).getV r = s.getV r := rfl


/-! ### The shapes of an effect -/

theorem decodesTo_row {mask pattern : Word} {build : Word → Instr} (k : Nat)
    (h : opcodeMap[k]? = some ⟨pattern, mask, build⟩) : DecodesTo mask pattern build :=
  fun op ho => opcodeMap_decodes _ (List.mem_of_getElem? h) op ho

theorem writesReg_of_exec {i : Instr} {x : RegIdx} {value : State → Nat} (b : State → Byte)
    (h : ∀ s, exec i s = .next (s.setV x (b s))) (hv : ∀ s, (b s).toNat = value s) : WritesReg i x value :=
  fun s => ⟨_, h s, by simp [hv], fun r hr => by simp [hr], rfl, fun _ => rfl⟩

theorem writesRegAndFlag_of_exec {i : Instr} {x : RegIdx} {value : State → Nat} {flag : State → Prop}
    (b : State → Byte) (f : State → Bool) (h : ∀ s, exec i s = .next (s.setResultThenFlag x (b s) (f s)))
    (hv : ∀ s, (b s).toNat = value s) (hf : ∀ s, f s = true ↔ flag s) : WritesRegAndFlag i x value flag := by
  intro s
  refine ⟨_, h s, fun hx => by simp [State.getV_setResultThenFlag, hx, hv], fun hs => ?_, fun hs => ?_,
    fun r hr hr' => by simp [State.getV_setResultThenFlag, hr, hr'], rfl, fun _ => rfl⟩
  · simp [State.getV_setResultThenFlag, flagByte, (hf s).2 hs]
  · have : f s = false := by rw [← Bool.not_eq_true, hf]; exact hs
    simp [State.getV_setResultThenFlag, flagByte, this]

theorem lostRight_iff (a : Byte) : lostRight a = true ↔ a.toNat % 2 = 1 := by
  simp [lostRight, BitVec.getLsbD, Nat.testBit_zero]

theorem lostLeft_iff (a : Byte) : lostLeft a = true ↔ 128 ≤ a.toNat := by
  have := a.isLt
  simp [lostLeft, BitVec.getLsbD, Nat.testBit, Nat.shiftRight_eq_div_pow]
  omega

end Sys2Proof.Machine
end

