-- ==== Sys2Proof/Laws/PerInstr.lean ====
section
/-! SUPPORT. A statement about every instruction as syntax, made per instruction: the word an instruction encodes to matches
its own row of the opcode map (R85), whatever its operands. -/

namespace Sys2Proof.Laws.EncodesToItsRow

/-- R85: the number of an instruction's row in the map, counted from 0. -/
def rowNumber : Instr → Nat

  | .cls => 0
  | .ret => 1
  | .jp _ => 2
  | .call _ => 3
  | .seImm _ _ => 4
  | .sneImm _ _ => 5
  | .seReg _ _ => 6
  | .ldImm _ _ => 7
  | .addImm _ _ => 8
  | .ldReg _ _ => 9
  | .orReg _ _ => 10
  | .andReg _ _ => 11
  | .xorReg _ _ => 12
  | .addReg _ _ => 13
  | .sub _ _ => 14
  | .shr _ _ => 15
  | .subn _ _ => 16
  | .shl _ _ => 17
  | .sneReg _ _ => 18
  | .ldI _ => 19
  | .jpV0 _ => 20
  | .rnd _ _ => 21
  | .drw _ _ _ => 22
  | .skp _ => 23
  | .sknp _ => 24
  | .ldVxDt _ => 25
  | .ldVxK _ => 26
  | .ldDtVx _ => 27
  | .ldStVx _ => 28
  | .addI _ => 29
  | .ldF _ => 30
  | .ldB _ => 31
  | .ldMemVx _ => 32
  | .ldVxMem _ => 33

/-- The encoded word matches the instruction's row. -/
def Statement (i : Instr) : Prop :=
  ∃ row, opcodeMap[rowNumber i]? = some row ∧ encode i &&& row.mask = row.pattern

/-- The high nibble of a word of format `NNN`, for addresses of any value. -/
theorem fieldN1_wordNNN {n1 : Nat} (h : n1 < 16) (addr : Word) : fieldN1 (wordNNN n1 addr) = BitVec.ofNat 4 n1 := by
  apply BitVec.eq_of_toNat_eq
  rw [fieldN1_toNat, wordNNN_toNat h, BitVec.toNat_ofNat]
  omega

theorem cls : Statement (.cls) :=
  ⟨_, rfl, by decide⟩

theorem ret : Statement (.ret) :=
  ⟨_, rfl, by decide⟩

theorem jp (addr : Word) : Statement (.jp addr) :=
  ⟨_, rfl, (and_F000_iff _ (by decide)).2 (fieldN1_wordNNN (n1 := 1) (by decide) addr)⟩

theorem call (addr : Word) : Statement (.call addr) :=
  ⟨_, rfl, (and_F000_iff _ (by decide)).2 (fieldN1_wordNNN (n1 := 2) (by decide) addr)⟩

theorem seImm (x : RegIdx) (kk : Byte) : Statement (.seImm x kk) :=
  ⟨_, rfl, (and_F000_iff _ (by decide)).2 (fields_wordXKK (n1 := 3) (by decide) x kk).1⟩

theorem sneImm (x : RegIdx) (kk : Byte) : Statement (.sneImm x kk) :=
  ⟨_, rfl, (and_F000_iff _ (by decide)).2 (fields_wordXKK (n1 := 4) (by decide) x kk).1⟩

theorem seReg (x y : RegIdx) : Statement (.seReg x y) :=
  ⟨_, rfl, (and_F000_iff _ (by decide)).2 (fields_wordXYN (n1 := 5) (by decide) x y 0).1⟩

theorem ldImm (x : RegIdx) (kk : Byte) : Statement (.ldImm x kk) :=
  ⟨_, rfl, (and_F000_iff _ (by decide)).2 (fields_wordXKK (n1 := 6) (by decide) x kk).1⟩

theorem addImm (x : RegIdx) (kk : Byte) : Statement (.addImm x kk) :=
  ⟨_, rfl, (and_F000_iff _ (by decide)).2 (fields_wordXKK (n1 := 7) (by decide) x kk).1⟩

theorem ldReg (x y : RegIdx) : Statement (.ldReg x y) :=
  ⟨_, rfl, (and_F00F_iff _ (by decide)).2
    ⟨(fields_wordXYN (n1 := 8) (by decide) x y 0).1, (fields_wordXYN (n1 := 8) (by decide) x y 0).2.2.2⟩⟩

theorem orReg (x y : RegIdx) : Statement (.orReg x y) :=
  ⟨_, rfl, (and_F00F_iff _ (by decide)).2
    ⟨(fields_wordXYN (n1 := 8) (by decide) x y 1).1, (fields_wordXYN (n1 := 8) (by decide) x y 1).2.2.2⟩⟩

theorem andReg (x y : RegIdx) : Statement (.andReg x y) :=
  ⟨_, rfl, (and_F00F_iff _ (by decide)).2
    ⟨(fields_wordXYN (n1 := 8) (by decide) x y 2).1, (fields_wordXYN (n1 := 8) (by decide) x y 2).2.2.2⟩⟩

theorem xorReg (x y : RegIdx) : Statement (.xorReg x y) :=
  ⟨_, rfl, (and_F00F_iff _ (by decide)).2
    ⟨(fields_wordXYN (n1 := 8) (by decide) x y 3).1, (fields_wordXYN (n1 := 8) (by decide) x y 3).2.2.2⟩⟩

theorem addReg (x y : RegIdx) : Statement (.addReg x y) :=
  ⟨_, rfl, (and_F00F_iff _ (by decide)).2
    ⟨(fields_wordXYN (n1 := 8) (by decide) x y 4).1, (fields_wordXYN (n1 := 8) (by decide) x y 4).2.2.2⟩⟩

theorem sub (x y : RegIdx) : Statement (.sub x y) :=
  ⟨_, rfl, (and_F00F_iff _ (by decide)).2
    ⟨(fields_wordXYN (n1 := 8) (by decide) x y 5).1, (fields_wordXYN (n1 := 8) (by decide) x y 5).2.2.2⟩⟩

theorem shr (x y : RegIdx) : Statement (.shr x y) :=
  ⟨_, rfl, (and_F00F_iff _ (by decide)).2
    ⟨(fields_wordXYN (n1 := 8) (by decide) x y 6).1, (fields_wordXYN (n1 := 8) (by decide) x y 6).2.2.2⟩⟩

theorem subn (x y : RegIdx) : Statement (.subn x y) :=
  ⟨_, rfl, (and_F00F_iff _ (by decide)).2
    ⟨(fields_wordXYN (n1 := 8) (by decide) x y 7).1, (fields_wordXYN (n1 := 8) (by decide) x y 7).2.2.2⟩⟩

theorem shl (x y : RegIdx) : Statement (.shl x y) :=
  ⟨_, rfl, (and_F00F_iff _ (by decide)).2
    ⟨(fields_wordXYN (n1 := 8) (by decide) x y 14).1, (fields_wordXYN (n1 := 8) (by decide) x y 14).2.2.2⟩⟩

theorem sneReg (x y : RegIdx) : Statement (.sneReg x y) :=
  ⟨_, rfl, (and_F000_iff _ (by decide)).2 (fields_wordXYN (n1 := 9) (by decide) x y 0).1⟩

theorem ldI (addr : Word) : Statement (.ldI addr) :=
  ⟨_, rfl, (and_F000_iff _ (by decide)).2 (fieldN1_wordNNN (n1 := 10) (by decide) addr)⟩

theorem jpV0 (addr : Word) : Statement (.jpV0 addr) :=
  ⟨_, rfl, (and_F000_iff _ (by decide)).2 (fieldN1_wordNNN (n1 := 11) (by decide) addr)⟩

theorem rnd (x : RegIdx) (kk : Byte) : Statement (.rnd x kk) :=
  ⟨_, rfl, (and_F000_iff _ (by decide)).2 (fields_wordXKK (n1 := 12) (by decide) x kk).1⟩

theorem drw (x y : RegIdx) (n : Nat) : Statement (.drw x y n) :=
  ⟨_, rfl, (and_F000_iff _ (by decide)).2 (fields_wordXYN (n1 := 13) (by decide) x y n).1⟩

theorem skp (x : RegIdx) : Statement (.skp x) :=
  ⟨_, rfl, (and_F0FF_iff _ (by decide)).2
    ⟨(fields_wordXKK (n1 := 14) (by decide) x 0x9e).1, (fields_wordXKK (n1 := 14) (by decide) x 0x9e).2.2⟩⟩

theorem sknp (x : RegIdx) : Statement (.sknp x) :=
  ⟨_, rfl, (and_F0FF_iff _ (by decide)).2
    ⟨(fields_wordXKK (n1 := 14) (by decide) x 0xa1).1, (fields_wordXKK (n1 := 14) (by decide) x 0xa1).2.2⟩⟩

theorem ldVxDt (x : RegIdx) : Statement (.ldVxDt x) :=
  ⟨_, rfl, (and_F0FF_iff _ (by decide)).2
    ⟨(fields_wordXKK (n1 := 15) (by decide) x 0x7).1, (fields_wordXKK (n1 := 15) (by decide) x 0x7).2.2⟩⟩

theorem ldVxK (x : RegIdx) : Statement (.ldVxK x) :=
  ⟨_, rfl, (and_F0FF_iff _ (by decide)).2
    ⟨(fields_wordXKK (n1 := 15) (by decide) x 0xa).1, (fields_wordXKK (n1 := 15) (by decide) x 0xa).2.2⟩⟩

theorem ldDtVx (x : RegIdx) : Statement (.ldDtVx x) :=
  ⟨_, rfl, (and_F0FF_iff _ (by decide)).2
    ⟨(fields_wordXKK (n1 := 15) (by decide) x 0x15).1, (fields_wordXKK (n1 := 15) (by decide) x 0x15).2.2⟩⟩

theorem ldStVx (x : RegIdx) : Statement (.ldStVx x) :=
  ⟨_, rfl, (and_F0FF_iff _ (by decide)).2
    ⟨(fields_wordXKK (n1 := 15) (by decide) x 0x18).1, (fields_wordXKK (n1 := 15) (by decide) x 0x18).2.2⟩⟩

theorem addI (x : RegIdx) : Statement (.addI x) :=
  ⟨_, rfl, (and_F0FF_iff _ (by decide)).2
    ⟨(fields_wordXKK (n1 := 15) (by decide) x 0x1e).1, (fields_wordXKK (n1 := 15) (by decide) x 0x1e).2.2⟩⟩

theorem ldF (x : RegIdx) : Statement (.ldF x) :=
  ⟨_, rfl, (and_F0FF_iff _ (by decide)).2
    ⟨(fields_wordXKK (n1 := 15) (by decide) x 0x29).1, (fields_wordXKK (n1 := 15) (by decide) x 0x29).2.2⟩⟩

theorem ldB (x : RegIdx) : Statement (.ldB x) :=
  ⟨_, rfl, (and_F0FF_iff _ (by decide)).2
    ⟨(fields_wordXKK (n1 := 15) (by decide) x 0x33).1, (fields_wordXKK (n1 := 15) (by decide) x 0x33).2.2⟩⟩

theorem ldMemVx (x : RegIdx) : Statement (.ldMemVx x) :=
  ⟨_, rfl, (and_F0FF_iff _ (by decide)).2
    ⟨(fields_wordXKK (n1 := 15) (by decide) x 0x55).1, (fields_wordXKK (n1 := 15) (by decide) x 0x55).2.2⟩⟩

theorem ldVxMem (x : RegIdx) : Statement (.ldVxMem x) :=
  ⟨_, rfl, (and_F0FF_iff _ (by decide)).2
    ⟨(fields_wordXKK (n1 := 15) (by decide) x 0x65).1, (fields_wordXKK (n1 := 15) (by decide) x 0x65).2.2⟩⟩

end Sys2Proof.Laws.EncodesToItsRow
end

