-- ==== Sys2Proof/Laws/Step.lean ====
section
/-! SUPPORT. What a step can do, said once (R190): the cases of an iteration and of an instruction step, with their guards. -/

namespace Sys2Proof.Machine

variable {s t : State}

/-! ### The environment's sample (R196) -/

theorem env_advance_of_script {e : Env} {first : Inputs} {rest : List Inputs} (h : e.script = first :: rest) :
    e.advance = { inputs := first, script := rest, samples := e.samples + 1 } := by
  simp [Env.advance, Env.upcoming, h]

@[simp] theorem env_advance_inputs (e : Env) : e.advance.inputs = e.upcoming := rfl

theorem sample_peek (s : State) (a : Nat) : s.sample.peek a = s.peek a := rfl

theorem advancePastFetch_peek (s : State) (a : Nat) : s.advancePastFetch.peek a = s.peek a := rfl

/-! ### What kind of step comes next -/

theorem ticksNext_iff : s.ticksNext = true ↔
    s.run = .running ∧ s.env.upcoming.quit = false ∧ s.sample.tickDue = true := by
  simp [State.ticksNext, and_assoc]

theorem executesNext_iff : s.executesNext = true ↔
    s.run = .running ∧ s.env.upcoming.quit = false ∧ s.sample.tickDue = false ∧ s.icount < s.cfg.ipt := by
  simp only [State.executesNext, Bool.and_eq_true, beq_iff_eq, Bool.not_eq_true', decide_eq_true_eq, and_assoc]
  exact Iff.rfl

/-- An instruction step: the fetch faults, or the word is unrecognized, or the decoded instruction runs (R194, R199). -/
theorem instructionStep_cases (s : State) :
    (Config.accessOk s.cfg s.pc 2 ≠ true ∧ s.instructionStep = .next (s.raise (outOfRange s.pc))) ∨
    (Config.accessOk s.cfg s.pc 2 = true ∧
      ∃ op, op = fuse (s.peek s.pc.toNat) (s.peek (s.pc.toNat + 1)) ∧
        ((decode op = .error (.unrecognizedOpcode op) ∧
            s.instructionStep = .next (s.advancePastFetch.raise ⟨.unrecognizedOpcode, op⟩)) ∨
          ∃ i, decode op = .ok i ∧ i.wf = true ∧ s.instructionStep = exec i s.advancePastFetch)) := by
  by_cases h : Config.accessOk s.cfg s.pc 2 = true
  · refine .inr ⟨h, _, rfl, ?_⟩
    unfold State.instructionStep dispatch
    rw [fetchWord_ok s h]
    dsimp only
    cases hd : decode (fuse (s.peek s.pc.toNat) (s.peek (s.pc.toNat + 1))) with
    | ok i => exact .inr ⟨i, rfl, decode_wf hd, rfl⟩
    | error r => exact .inl ⟨by rw [decode_error hd], rfl⟩
  · refine .inl ⟨h, ?_⟩
    unfold State.instructionStep
    rw [fetchWord_error s h]

/-- A step: refused for a budget of 0, or one of the six things an iteration can do (R190). -/
theorem step_cases (s : State) :
    (s.cfg.ipt = 0 ∧ step s = .refused .budgetBelowOne) ∨
    (s.cfg.ipt ≠ 0 ∧ (
      (s.run.ended = true ∧ step s = .next s.sample) ∨
      (s.run.ended = false ∧ s.env.upcoming.quit = true ∧ step s = .next s.sample.quitStep) ∨
      (∃ x, s.run = .awaitKey x ∧ s.env.upcoming.quit = false ∧ step s = .next (s.sample.awaitIteration x)) ∨
      (s.ticksNext = true ∧ step s = .next s.sample.tickStep) ∨
      (s.run = .running ∧ s.env.upcoming.quit = false ∧ s.sample.tickDue = false ∧ s.cfg.ipt ≤ s.icount ∧
        step s = .next s.sample) ∨
      (s.executesNext = true ∧ step s = s.sample.instructionStep))) := by
  unfold step iteration
  by_cases h0 : s.cfg.ipt = 0
  · exact .inl ⟨h0, if_pos h0⟩
  refine .inr ⟨h0, ?_⟩
  rw [if_neg (show ¬ s.sample.cfg.ipt = 0 from h0)]
  by_cases he : s.run.ended = true
  · exact .inl ⟨he, if_pos he⟩
  refine .inr ?_
  rw [if_neg (show ¬ s.sample.run.ended = true from he)]
  by_cases hq : s.env.upcoming.quit = true
  · exact .inl ⟨by simpa using he, hq, if_pos hq⟩
  refine .inr ?_
  rw [if_neg (show ¬ s.sample.env.inputs.quit = true from hq)]
  simp only [Bool.not_eq_true] at hq
  cases hr : s.run with
  | halted => simp [hr, RunState.ended] at he
  | faulted => simp [hr, RunState.ended] at he
  | awaitKey x => exact .inl ⟨x, rfl, hq, by simp [hr]⟩
  | running =>
    refine .inr ?_
    rw [State.sample_run, hr]
    unfold State.runningIteration
    by_cases htd : s.sample.tickDue = true
    · exact .inl ⟨ticksNext_iff.2 ⟨hr, hq, htd⟩, if_pos htd⟩
    refine .inr ?_
    rw [if_neg htd]
    simp only [Bool.not_eq_true] at htd
    by_cases hb : s.cfg.ipt ≤ s.icount
    · exact .inl ⟨rfl, hq, htd, hb, if_pos hb⟩
    · exact .inr ⟨executesNext_iff.2 ⟨hr, hq, htd, by omega⟩, if_neg hb⟩

/-- The six cases of a step that answers a next state. -/
theorem step_next_cases (h : step s = .next t) : s.cfg.ipt ≠ 0 ∧ (
    (s.run.ended = true ∧ t = s.sample) ∨
    (s.run.ended = false ∧ s.env.upcoming.quit = true ∧ t = s.sample.quitStep) ∨
    (∃ x, s.run = .awaitKey x ∧ s.env.upcoming.quit = false ∧ t = s.sample.awaitIteration x) ∨
    (s.ticksNext = true ∧ t = s.sample.tickStep) ∨
    (s.run = .running ∧ s.env.upcoming.quit = false ∧ s.sample.tickDue = false ∧ s.cfg.ipt ≤ s.icount ∧ t = s.sample) ∨
    (s.executesNext = true ∧ s.sample.instructionStep = .next t)) := by
  rcases step_cases s with ⟨-, hs⟩ | ⟨h0, ⟨he, hs⟩ | ⟨he, hq, hs⟩ | ⟨x, hx, hq, hs⟩ | ⟨ht, hs⟩ | ⟨hr, hq, htd, hb, hs⟩ | ⟨hx, hs⟩⟩ <;>
    rw [h] at hs
  · cases hs
  · exact ⟨h0, .inl ⟨he, by injection hs⟩⟩
  · exact ⟨h0, .inr (.inl ⟨he, hq, by injection hs⟩)⟩
  · exact ⟨h0, .inr (.inr (.inl ⟨x, hx, hq, by injection hs⟩))⟩
  · exact ⟨h0, .inr (.inr (.inr (.inl ⟨ht, by injection hs⟩)))⟩
  · exact ⟨h0, .inr (.inr (.inr (.inr (.inl ⟨hr, hq, htd, hb, by injection hs⟩))))⟩
  · exact ⟨h0, .inr (.inr (.inr (.inr (.inr ⟨hx, hs.symm⟩))))⟩

/-- The two cases of an iteration that awaits a key (R195). -/
theorem awaitIteration_cases (s : State) (x : RegIdx) :
    (∃ k, s.env.inputs.keyEvent = some k ∧ s.awaitIteration x = s.keyStep x k) ∨
    (s.env.inputs.keyEvent = none ∧ s.awaitIteration x = s) := by
  unfold State.awaitIteration
  cases s.env.inputs.keyEvent with
  | none => exact .inr ⟨rfl, rfl⟩
  | some k => exact .inl ⟨k, rfl, rfl⟩

/-! ### Each kind of step, from its guard -/

theorem step_of_ended (h0 : 1 ≤ s.cfg.ipt) (he : s.run.ended = true) : step s = .next s.sample := by
  unfold step iteration
  rw [if_neg (show ¬ s.sample.cfg.ipt = 0 from Nat.ne_of_gt h0)]
  exact if_pos he

theorem step_of_quit (h0 : 1 ≤ s.cfg.ipt) (he : s.run.ended = false) (hq : s.env.upcoming.quit = true) :
    step s = .next s.sample.quitStep := by
  unfold step iteration
  rw [if_neg (show ¬ s.sample.cfg.ipt = 0 from Nat.ne_of_gt h0), if_neg (show ¬ s.sample.run.ended = true by simp [he])]
  exact if_pos hq

theorem iteration_of_awaitKey {u : State} {x : RegIdx} (h0 : 1 ≤ u.cfg.ipt) (hr : u.run = .awaitKey x)
    (hq : u.env.inputs.quit = false) : iteration u = .next (u.awaitIteration x) := by
  unfold iteration
  rw [if_neg (by omega), if_neg (by simp [hr, RunState.ended]), if_neg (by simp [hq]), hr]

theorem iteration_of_running {u : State} (h0 : 1 ≤ u.cfg.ipt) (hr : u.run = .running)
    (hq : u.env.inputs.quit = false) : iteration u = u.runningIteration := by
  unfold iteration
  rw [if_neg (by omega), if_neg (by simp [hr, RunState.ended]), if_neg (by simp [hq]), hr]

theorem step_of_awaitKey {x : RegIdx} (h0 : 1 ≤ s.cfg.ipt) (hr : s.run = .awaitKey x)
    (hq : s.env.upcoming.quit = false) : step s = .next (s.sample.awaitIteration x) :=
  iteration_of_awaitKey h0 hr hq

theorem step_of_ticksNext (h0 : 1 ≤ s.cfg.ipt) (h : s.ticksNext = true) : step s = .next s.sample.tickStep := by
  obtain ⟨hr, hq, htd⟩ := ticksNext_iff.1 h
  exact (iteration_of_running (u := s.sample) h0 hr hq).trans (if_pos htd)

theorem step_of_hold (h0 : 1 ≤ s.cfg.ipt) (hr : s.run = .running) (hq : s.env.upcoming.quit = false)
    (htd : s.sample.tickDue = false) (hb : s.cfg.ipt ≤ s.icount) : step s = .next s.sample := by
  refine (iteration_of_running (u := s.sample) h0 hr hq).trans ?_
  unfold State.runningIteration
  rw [htd]
  exact if_pos hb

theorem step_of_executesNext (h : s.executesNext = true) : step s = s.sample.instructionStep := by
  obtain ⟨hr, hq, htd, hb⟩ := executesNext_iff.1 h
  refine (iteration_of_running (u := s.sample) (show 1 ≤ s.cfg.ipt by omega) hr hq).trans ?_
  unfold State.runningIteration
  rw [htd]
  exact if_neg (show ¬ s.cfg.ipt ≤ s.icount by omega)

/-! ### Runs -/

theorem core_run_succ_of_next (M : Host.Core) {n : Nat} {s t : M.State} (h : M.step s = .next t) :
    M.run (n + 1) s = M.run n t := by
  rw [Host.Core.run, h]

theorem core_run_succ_next (M : Host.Core) {n : Nat} {s u : M.State} (h : M.run (n + 1) s = .next u) :
    ∃ t, M.step s = .next t ∧ M.run n t = .next u := by
  rw [Host.Core.run] at h
  cases hs : M.step s with
  | next t => exact ⟨t, rfl, by rwa [hs] at h⟩
  | fault r => rw [hs] at h; cases h
  | refused r => rw [hs] at h; cases h

theorem run_succ_of_next {n : Nat} {s t : State} (h : step s = .next t) :
    Host.Core.run Sys2Proof.core (n + 1) s = Host.Core.run Sys2Proof.core n t :=
  core_run_succ_of_next Sys2Proof.core h

/-- A run of `n + 1` steps that reaches a state goes through a next state. -/
theorem run_succ_next {n : Nat} {s u : State} (h : Host.Core.run Sys2Proof.core (n + 1) s = .next u) :
    ∃ t, step s = .next t ∧ Host.Core.run Sys2Proof.core n t = .next u :=
  core_run_succ_next Sys2Proof.core h

theorem run_zero_next {s u : State} (h : Host.Core.run Sys2Proof.core 0 s = .next u) : u = s := by
  injection h with h
  exact h.symm

theorem tally_succ_of_next (p : State → Bool) {n : Nat} {s t : State} (h : step s = .next t) :
    tally p (n + 1) s = (if p s then 1 else 0) + tally p n t := by
  rw [tally, h]

end Sys2Proof.Machine
end

