-- ==== Sys2Proof/Tests/Slice0.lean ====
section
/-! SUPPORT. Tests, one step each, with results taken from the spec (`95_test_vectors.md`; each test names its vector), the
smoke test of WellFormed, words written out bit by bit from the encodings, and a witness for the hypotheses of every
obligation that has some. -/

namespace Sys2Proof.Tests

open Sys2Proof Sys2Proof.Machine

/-! ### WellFormed (R81, R83): every check refuses an ill-formed term and accepts the largest legal operand -/

theorem test_wf_jp : Instr.wf (.jp 0x1000) = false ∧ Instr.wf (.jp 0xFFF) = true := by decide
theorem test_wf_call : Instr.wf (.call 0x1000) = false ∧ Instr.wf (.call 0xFFF) = true := by decide
theorem test_wf_ldI : Instr.wf (.ldI 0xFFFF) = false ∧ Instr.wf (.ldI 0xFFF) = true := by decide
theorem test_wf_jpV0 : Instr.wf (.jpV0 0x1000) = false ∧ Instr.wf (.jpV0 0xFFF) = true := by decide
theorem test_wf_drw : Instr.wf (.drw 0 0 16) = false ∧ Instr.wf (.drw 15 15 15) = true := by decide

/-! ### Decoding (R82, R84, R85): the bits of each word are the nibbles of its pattern -/

theorem test_decode_cls : decode 0b0000000011100000#16 = .ok (.cls) := by decide
theorem test_decode_ret : decode 0b0000000011101110#16 = .ok (.ret) := by decide
theorem test_decode_jp : decode 0b0001101010111100#16 = .ok (.jp 0xABC) := by decide
theorem test_decode_call : decode 0b0010001100000001#16 = .ok (.call 0x301) := by decide
theorem test_decode_seImm : decode 0b0011010110010110#16 = .ok (.seImm 0x5 0x96) := by decide
theorem test_decode_sneImm : decode 0b0100011011000011#16 = .ok (.sneImm 0x6 0xC3) := by decide
theorem test_decode_seReg : decode 0b0101000100100000#16 = .ok (.seReg 0x1 0x2) := by decide
theorem test_decode_ldImm : decode 0b0110101000101111#16 = .ok (.ldImm 0xA 0x2F) := by decide
theorem test_decode_addImm : decode 0b0111000110000001#16 = .ok (.addImm 0x1 0x81) := by decide
theorem test_decode_ldReg : decode 0b1000001101000000#16 = .ok (.ldReg 0x3 0x4) := by decide
theorem test_decode_orReg : decode 0b1000001101000001#16 = .ok (.orReg 0x3 0x4) := by decide
theorem test_decode_andReg : decode 0b1000001101000010#16 = .ok (.andReg 0x3 0x4) := by decide
theorem test_decode_xorReg : decode 0b1000001101000011#16 = .ok (.xorReg 0x3 0x4) := by decide
theorem test_decode_addReg : decode 0b1000001101000100#16 = .ok (.addReg 0x3 0x4) := by decide
theorem test_decode_sub : decode 0b1000001101000101#16 = .ok (.sub 0x3 0x4) := by decide
theorem test_decode_shr : decode 0b1000001101000110#16 = .ok (.shr 0x3 0x4) := by decide
theorem test_decode_subn : decode 0b1000001101000111#16 = .ok (.subn 0x3 0x4) := by decide
theorem test_decode_shl : decode 0b1000001101001110#16 = .ok (.shl 0x3 0x4) := by decide
theorem test_decode_sneReg : decode 0b1001111011010000#16 = .ok (.sneReg 0xE 0xD) := by decide
theorem test_decode_ldI : decode 0b1010001011110000#16 = .ok (.ldI 0x2F0) := by decide
theorem test_decode_jpV0 : decode 0b1011100000000001#16 = .ok (.jpV0 0x801) := by decide
theorem test_decode_rnd : decode 0b1100001100001111#16 = .ok (.rnd 0x3 0x0F) := by decide
theorem test_decode_drw : decode 0b1101000100101101#16 = .ok (.drw 0x1 0x2 13) := by decide
theorem test_decode_skp : decode 0b1110011110011110#16 = .ok (.skp 0x7) := by decide
theorem test_decode_sknp : decode 0b1110011110100001#16 = .ok (.sknp 0x7) := by decide
theorem test_decode_ldVxDt : decode 0b1111100100000111#16 = .ok (.ldVxDt 0x9) := by decide
theorem test_decode_ldVxK : decode 0b1111100100001010#16 = .ok (.ldVxK 0x9) := by decide
theorem test_decode_ldDtVx : decode 0b1111100100010101#16 = .ok (.ldDtVx 0x9) := by decide
theorem test_decode_ldStVx : decode 0b1111100100011000#16 = .ok (.ldStVx 0x9) := by decide
theorem test_decode_addI : decode 0b1111100100011110#16 = .ok (.addI 0x9) := by decide
theorem test_decode_ldF : decode 0b1111100100101001#16 = .ok (.ldF 0x9) := by decide
theorem test_decode_ldB : decode 0b1111100100110011#16 = .ok (.ldB 0x9) := by decide
theorem test_decode_ldMemVx : decode 0b1111100101010101#16 = .ok (.ldMemVx 0x9) := by decide
theorem test_decode_ldVxMem : decode 0b1111100101100101#16 = .ok (.ldVxMem 0x9) := by decide

/-- Vectors E1 to E15: words that match no row, rejected by name with their value. -/
theorem test_decode_rejects :
    [0x0000, 0x0123, 0x00E1, 0x00FE, 0x8008, 0x8129, 0x812F, 0xE000].all
      (fun op => decide (decode op = .error (.unrecognizedOpcode op))) = true ∧
    [0xE19D, 0xE19F, 0xF000, 0xF130, 0xF175, 0xF185, 0xF1FF, 0xFFFF].all
      (fun op => decide (decode op = .error (.unrecognizedOpcode op))) = true := by decide

/-- R80: one byte is not an instruction; two bytes are, high byte first, and the rest is left over. -/
theorem test_decode_bytes :
    decodeBytes [0x12] = .error .truncated ∧ decodeBytes [0x12, 0x34, 0x56] = .ok (.jp 0x234, [0x56]) := by decide

/-- R82, R85: the words of the opcode table. -/
theorem test_encode : encode (.drw 0x1 0x2 15) = 0xD12F ∧ encode (.shl 0x1 0x2) = 0x812E ∧ encode (.ldB 0x5) = 0xF533 ∧
    encode (.jpV0 0x300) = 0xB300 ∧ encode (.sneReg 0x1 0x2) = 0x9120 ∧ encode .ret = 0x00EE := by decide

/-! ### Single steps -/

/-- Reset with some registers and `I` set, idle inputs. -/
def start (regs : List (RegIdx × Byte)) (i : Word) : State :=
  regs.foldl (fun s p => s.setV p.1 p.2) { State.reset with i := i }

/-- The state after the step that runs the word at the program counter. -/
def after (s : State) (w : Nat) : State :=
  match step (s.withFetchWord 16 w) with
  | .next t => t
  | .fault _ => s
  | .refused _ => s

/-- What a test of an instruction of the arithmetic family looks at. -/
def regsAndPc (s : State) (rs : List RegIdx) : List Byte × Nat := (rs.map s.getV, s.pc.toNat)

/-- What a test of a fault looks at: run state, fault code, information, program counter, budget used. -/
def faultView (s : State) : Bool × Nat × Nat × Nat × Nat :=
  (decide (s.run = .faulted), s.faultCode, s.faultInfo.toNat, s.pc.toNat, s.icount)

/-- Some bytes of memory in address order. -/
def bytesAt (s : State) (a len : Nat) : List Byte := (List.range len).map fun j => s.peek (a + j)

/-- Reset with a byte on the random port. -/
def drawing (b : Byte) : State := { State.reset with env := { Env.fresh with inputs := { Inputs.idle with rnd := b } } }

/-- Key 5 held down. -/
def keyFiveDown (s : State) : State := { s with env := { s.env with inputs := { Inputs.idle with keys := 0x0020 } } }

/-- The stack filled with a word, with a given depth. -/
def withStack (s : State) (sp : Fin 17) (w : Word) : State := { s with sp := sp, stack := Vector.replicate 16 w }

/-- Vector A2. -/
theorem test_ldImm : regsAndPc (after (start [] 0) 0x6F7B) [15] =
    ([0x7B], 0x202) := by decide
/-- Vector A3: no flag. -/
theorem test_addImm : regsAndPc (after (start [(1, 0xF0), (15, 0x05)] 0) 0x7120) [1, 15] =
    ([0x10, 0x05], 0x202) := by decide
/-- Vector A5: `VF` as an ordinary destination. -/
theorem test_addImm_flag : regsAndPc (after (start [(15, 0xFF)] 0) 0x7F01) [15] =
    ([0x00], 0x202) := by decide
/-- Vector A6. -/
theorem test_ldReg : regsAndPc (after (start [(2, 0x33)] 0) 0x8120) [1, 2] =
    ([0x33, 0x33], 0x202) := by decide
/-- Vector A7: the flag stays. -/
theorem test_orReg : regsAndPc (after (start [(1, 0x0F), (2, 0xF1), (15, 0x07)] 0) 0x8121) [1, 2, 15] =
    ([0xFF, 0xF1, 0x07], 0x202) := by decide
/-- Vector A8. -/
theorem test_andReg : regsAndPc (after (start [(1, 0x3C), (2, 0x0F), (15, 0x07)] 0) 0x8122) [1, 2, 15] =
    ([0x0C, 0x0F, 0x07], 0x202) := by decide
/-- Vector A9. -/
theorem test_xorReg : regsAndPc (after (start [(1, 0xFF), (2, 0x0F), (15, 0x07)] 0) 0x8123) [1, 2, 15] =
    ([0xF0, 0x0F, 0x07], 0x202) := by decide
/-- Vector A15: a sum of exactly 255 carries nothing. -/
theorem test_addReg_exact : regsAndPc (after (start [(1, 0x80), (2, 0x7F), (15, 0x01)] 0) 0x8124) [1, 15] =
    ([0xFF, 0x00], 0x202) := by decide
/-- Vector A17: with `x = F` the flag overwrites the sum. -/
theorem test_addReg_flag : regsAndPc (after (start [(15, 0x02), (1, 0x03)] 0) 0x8F14) [15] =
    ([0x00], 0x202) := by decide
/-- Vector A23: equal operands borrow nothing. -/
theorem test_sub_equal : regsAndPc (after (start [(1, 0x33), (2, 0x33)] 0) 0x8125) [1, 15] =
    ([0x00, 0x01], 0x202) := by decide
/-- Vector A21. -/
theorem test_sub_borrow : regsAndPc (after (start [(1, 0x10), (2, 0x20), (15, 0x01)] 0) 0x8125) [1, 15] =
    ([0xF0, 0x00], 0x202) := by decide
/-- Vector A31: `V2` is not the operand. -/
theorem test_shr : regsAndPc (after (start [(1, 0x01), (2, 0xFF)] 0) 0x8126) [1, 15, 2] =
    ([0x00, 0x01, 0xFF], 0x202) := by decide
/-- Vector A35. -/
theorem test_shr_flag : regsAndPc (after (start [(15, 0x02)] 0) 0x8F26) [15] =
    ([0x00], 0x202) := by decide
/-- Vector A39. -/
theorem test_subn : regsAndPc (after (start [(1, 0x01), (2, 0x00), (15, 0x01)] 0) 0x8127) [1, 15] =
    ([0xFF, 0x00], 0x202) := by decide
/-- Vector A41: the old `VF` is the minuend. -/
theorem test_subn_flag : regsAndPc (after (start [(1, 0x05), (15, 0x01)] 0) 0x81F7) [1, 15] =
    ([0xFC, 0x00], 0x202) := by decide
/-- Vector A42. -/
theorem test_shl : regsAndPc (after (start [(1, 0x81)] 0) 0x812E) [1, 15] =
    ([0x02, 0x01], 0x202) := by decide
/-- Vector A46. -/
theorem test_shl_flag : regsAndPc (after (start [(15, 0x80)] 0) 0x8F2E) [15] =
    ([0x01], 0x202) := by decide
/-- Vectors A48, A51: the draw is masked. -/
theorem test_rnd : regsAndPc (after (drawing 0xB7) 0xC30F) [3] =
    ([0x07], 0x202) ∧
  regsAndPc (after (drawing 0xAB) 0xCFF0) [15] =
    ([0xA0], 0x202) := by decide
/-- Vector E20: the alias `0FEE` pops the top of two entries. -/
theorem test_ret :
    (let t := after (withStack State.reset 2 0x03AB) 0x0FEE; (t.pc.toNat, t.sp.val)) = (0x3AB, 1) := by decide
/-- Vector C2. -/
theorem test_ret_underflow : faultView (after State.reset 0x00EE) = (true, 3, 0, 0x202, 1) := by decide
/-- Vector C4: the target is not checked. -/
theorem test_jp : regsAndPc (after (start [] 0) 0x1FFF) [] =
    ([], 0xFFF) := by decide
/-- Vector C7: the sixteenth call succeeds. -/
theorem test_call :
    (let t := after (withStack State.reset 15 0x208) 0x2300; (t.pc.toNat, t.sp.val, t.stack[15].toNat, t.stack[14].toNat)) =
    (0x300, 16, 0x202, 0x208) := by decide
/-- Vector C8. -/
theorem test_call_overflow :
    faultView (after (withStack State.reset 16 0x208) 0x2300) = (true, 2, 0, 0x202, 1) := by decide
/-- Vector C11: the sum is not reduced. -/
theorem test_jpV0 : regsAndPc (after (start [(0, 0xFF)] 0) 0xBFFF) [0] =
    ([0xFF], 0x10FE) := by decide
/-- Vector C13. -/
theorem test_seImm : regsAndPc (after (start [(3, 0x2A)] 0) 0x332A) [3] =
    ([0x2A], 0x204) := by decide
/-- Vector C14. -/
theorem test_seImm_not : regsAndPc (after (start [(3, 0x2B)] 0) 0x332A) [3] =
    ([0x2B], 0x202) := by decide
/-- Vector C16. -/
theorem test_sneImm : regsAndPc (after (start [(3, 0x00)] 0) 0x432A) [3] =
    ([0x00], 0x204) := by decide
/-- Vector C15. -/
theorem test_sneImm_not : regsAndPc (after (start [(3, 0x2A)] 0) 0x432A) [3] =
    ([0x2A], 0x202) := by decide
/-- Vector E17: the low nibble is ignored. -/
theorem test_seReg : regsAndPc (after (start [(1, 0x07), (2, 0x07)] 0) 0x512F) [] =
    ([], 0x204) := by decide
/-- Vector C18. -/
theorem test_seReg_not : regsAndPc (after (start [(1, 0x07), (2, 0x08)] 0) 0x5120) [] =
    ([], 0x202) := by decide
/-- Vector C20. -/
theorem test_sneReg : regsAndPc (after (start [(1, 0x07), (2, 0x08)] 0) 0x9120) [] =
    ([], 0x204) := by decide
/-- Vector C22. -/
theorem test_sneReg_not : regsAndPc (after (start [(1, 0x03)] 0) 0x9110) [] =
    ([], 0x202) := by decide
/-- Vector X2: the top four bits are cleared. -/
theorem test_ldI : (after (start [] 0x1234) 0xA000).i = 0 := by decide
/-- Vector X6: wraps modulo 65536. -/
theorem test_addI : (after (start [(2, 0x02)] 0xFFFF) 0xF21E).i = 1 := by decide
/-- Vector X5. -/
theorem test_addI_noflag :
    (let t := after (start [(2, 0x01), (15, 0x07)] 0x0FFF) 0xF21E; (t.i.toNat, t.getV 15)) = (0x1000, 0x07) := by decide
/-- Vector X10. -/
theorem test_ldF : (after (start [(4, 0x0F)] 0) 0xF429).i = 0x9B := by decide
/-- Vector X11: the whole byte is tested and `I` stays. -/
theorem test_ldF_invalid : faultView (after (start [(4, 0x10)] 0x300) 0xF429) = (true, 6, 0x10, 0x202, 1) ∧
  (after (start [(4, 0x10)] 0x300) 0xF429).i = 0x300 := by decide
/-- Vectors X15, X17: at the highest legal `I`. -/
theorem test_ldB : bytesAt (after (start [(5, 0xFF)] 0x300) 0xF533) 0x300 3 = [2, 5, 5] ∧
  bytesAt (after (start [(5, 0x63)] 0xFFD) 0xF533) 0xFFD 3 = [0, 9, 9] := by decide
/-- R143, D10: one byte too high, nothing is written. -/
theorem test_ldB_range : faultView (after (start [(5, 0x63)] 0xFFE) 0xF533) = (true, 1, 0xFFE, 0x202, 1) ∧
  bytesAt (after (start [(5, 0x63)] 0xFFE) 0xF533) 0xFFE 2 = [0, 0] := by decide
/-- R144, the example: `V2` inclusive, `I` stays. -/
theorem test_ldMemVx :
    (let t := after (start [(0, 0x11), (1, 0x22), (2, 0x33), (3, 0x44)] 0x400) 0xF255; (bytesAt t 0x400 4, t.i.toNat)) =
    ([0x11, 0x22, 0x33, 0x00], 0x400) := by decide
/-- Vector X25: the font cannot be written. -/
theorem test_ldMemVx_font : (let t := after (start [(0, 0xAB)] 0x50) 0xF055; (faultView t, bytesAt t 0x50 1)) =
    ((true, 1, 0x50, 0x202, 1), [0xF0]) := by decide
/-- Vector X29: the registers above stay. -/
theorem test_ldVxMem : (let t := after ((start [(3, 0x99)] 0x400).pokeBytes 0x400 [0x11, 0x22, 0x33, 0x44]) 0xF265;
    (regsAndPc t [0, 1, 2, 3], t.i.toNat)) = (([0x11, 0x22, 0x33, 0x99], 0x202), 0x400) := by decide
/-- Vector X31. -/
theorem test_ldVxMem_range :
    (let t := after (start [(0, 1), (1, 2)] 0xFFF) 0xF165; (faultView t, t.getV 0, t.getV 1)) =
    ((true, 1, 0xFFF, 0x202, 1), 1, 2) := by decide
/-- Vectors G1, E19: the alias `01E0`. -/
theorem test_cls : (let t := after ({ start [(15, 0x01)] 0 with fb := Vector.replicate 256 0xFF }) 0x01E0;
    (t.fb[0].toNat, t.fb[255].toNat, t.getV 15, t.pc.toNat)) = (0, 0, 1, 0x202) := by decide +kernel
/-- Vector G10: both edges wrap. -/
theorem test_drw_wrap :
    (let t := after ((start [(0, 0x3E), (1, 0x1F)] 0x300).pokeBytes 0x300 [0xFF, 0x81]) 0xD012;
    ([t.fb[255], t.fb[248], t.fb[7], t.fb[0], t.fb[1]], t.getV 15)) = ([0x03, 0xFC, 0x02, 0x04, 0x00], 0) := by decide +kernel
/-- Vector G19: the old `VF` is both coordinates; a pixel is turned off. -/
theorem test_drw_flag :
    (let t := after (({ start [(15, 0x01)] 0x300 with fb := (Vector.replicate 256 0).set 8 0xC0 }).pokeBytes 0x300 [0x80]) 0xDFF1;
    (t.fb[8], t.getV 15)) = (0x80, 1) := by decide +kernel
/-- Vectors K1, K2. -/
theorem test_skp : (after (keyFiveDown (start [(1, 0x05)] 0)) 0xE19E).pc = 0x204 ∧
  (after (start [(1, 0x05)] 0) 0xE19E).pc = 0x202 := by decide
/-- Vector K5: not masked to the low nibble. -/
theorem test_skp_invalid : faultView (after (keyFiveDown (start [(1, 0x15)] 0)) 0xE19E) =
    (true, 5, 0x15, 0x202, 1) := by decide
/-- Vectors K6, K7. -/
theorem test_sknp : (after (start [(1, 0x05)] 0) 0xE1A1).pc = 0x204 ∧
  (after (keyFiveDown (start [(1, 0x05)] 0)) 0xE1A1).pc = 0x202 := by decide
/-- Vector K8. -/
theorem test_sknp_invalid : faultView (after (start [(1, 0xFF)] 0) 0xE1A1) = (true, 5, 0xFF, 0x202, 1) := by decide
/-- Vector K9. -/
theorem test_ldVxK :
    (let t := after (start [(3, 0x77)] 0) 0xF30A; (decide (t.run = .awaitKey 3), t.getV 3, t.pc.toNat, t.icount)) =
    (true, 0x77, 0x202, 1) := by decide
/-- Vector D3: `VF` as the destination. -/
theorem test_ldVxDt :
    (let t := after { start [(15, 0x01)] 0 with dt := 9 } 0xFF07; (t.getV 15, t.dt)) = (9, 9) := by decide
/-- Vector D4. -/
theorem test_ldDtVx : (after (start [(2, 0x3C)] 0) 0xF215).dt = 0x3C := by decide
/-- Vectors D6, D7. -/
theorem test_ldStVx :
    (let t := after (start [(2, 0x3C)] 0) 0xF218; (t.st, t.audioOn)) = (0x3C, true) ∧
  (let t := after { start [(2, 0x00)] 0 with st := 5, audioOn := true } 0xF218; (t.st, t.audioOn)) = (0, false) := by decide

/-! ### The scheduler and the fetch -/

/-- The state after one step on given inputs. -/
def stepOn (s : State) (inp : Inputs) : State :=
  match step { s with env := { s.env with script := [inp] } } with
  | .next t => t
  | .fault _ => s
  | .refused _ => s

/-- Vector M3: an odd address. -/
theorem test_fetch_odd : (after { State.reset with pc := 0x201 } 0x6A2F).pc = 0x203 := by decide
/-- Vector M5: the last word. -/
theorem test_fetch_top :
    (let t := after { State.reset with pc := 0xFFE } 0x6A2F; (t.pc.toNat, t.getV 10)) = (0x1000, 0x2F) := by decide
/-- Vectors M1, M6, M8: a fetch fault leaves `PC` and the budget. -/
theorem test_fetch_fault : faultView (stepOn { State.reset with pc := 0x1FF } .idle) = (true, 1, 0x1FF, 0x1FF, 0) ∧
  faultView (stepOn { State.reset with pc := 0xFFF } .idle) = (true, 1, 0xFFF, 0xFFF, 0) ∧
  faultView (stepOn { State.reset with pc := 0 } .idle) = (true, 1, 0, 0, 0) := by decide
/-- Vector E1: zeroed memory is not an instruction. -/
theorem test_unloaded : faultView (stepOn State.reset .idle) = (true, 4, 0, 0x202, 1) := by decide
/-- Vector X28: a store into the next instruction is seen by its fetch. -/
theorem test_self_store :
    (let t := after ((start [(0, 0x12)] 0x202).pokeBytes 0x202 [0x60, 0x01]) 0xF055; bytesAt t 0x202 2) = [0x12, 0x01] ∧
  (stepOn (after ((start [(0, 0x12)] 0x202).pokeBytes 0x202 [0x60, 0x01]) 0xF055) .idle).pc = 0x201 := by decide
/-- Vector D9. -/
theorem test_tick :
    (let t := stepOn { State.reset with dt := 3, st := 1, audioOn := true, icount := 5 } { Inputs.idle with tick := true };
    (t.dt, t.st, t.audioOn, t.icount, t.tickDue, t.pc.toNat)) = (2, 0, false, 0, false, 0x200) := by decide
/-- Vector D10: no wrap below zero. -/
theorem test_tick_floor :
    (let t := stepOn { State.reset with tickDue := true } .idle; (t.dt, t.st, t.audioOn)) = (0, 0, false) := by decide
/-- Trace T1, row 3. -/
theorem test_hold :
    (let t := stepOn { State.reset with icount := 7 } .idle; (t.pc.toNat, t.icount, t.tickDue)) = (0x200, 7, false) := by decide
/-- Trace T2, rows 4 and 6. -/
theorem test_key_wait :
    (let t := stepOn { State.reset with run := .awaitKey 3, dt := 5 } { Inputs.idle with tick := true };
    (decide (t.run = .awaitKey 3), t.dt, t.tickDue)) = (true, 5, true) ∧
  (let t := stepOn { State.reset with run := .awaitKey 3, dt := 5, tickDue := true } { Inputs.idle with keyEvent := some 0xB };
    (decide (t.run = .running), t.getV 3, t.dt, t.tickDue)) = (true, 0xB, 5, true) := by decide
/-- Trace T3 (a), (b). -/
theorem test_quit : (let t := stepOn { State.reset with dt := 5, tickDue := true } { Inputs.idle with quit := true };
    (t.exitStatus, t.dt, t.tickDue)) = (some .success, 5, true) ∧
  (let t := stepOn { State.reset with run := .awaitKey 3 } { Inputs.idle with quit := true, keyEvent := some 4 };
    (t.exitStatus, t.getV 3)) = (some .success, 0) := by decide
/-- Trace T3 (c). -/
theorem test_faulted_stays :
    (stepOn { State.reset with run := .faulted } { Inputs.idle with quit := true }).exitStatus = some .failure := by decide
/-- Vector S16: the digits stand at their addresses. -/
theorem test_font :
    bytesAt State.reset 0x50 2 = [0xF0, 0x90] ∧ bytesAt State.reset 0x82 2 = [0xF0, 0x90] ∧ bytesAt State.reset 0x9E 3 = [0x80, 0x80, 0] := by decide
/-- Vectors M10, M11: the alternate low bound. -/
theorem test_low600 :
    (let s := State.resetWith { Config.standard with low := .alternate } .zero; (after s 0x6A2F).pc.toNat) = 0x602 ∧
  (let s := { State.resetWith { Config.standard with low := .alternate } .zero with pc := 0x200 };
    faultView (stepOn s .idle)) = (true, 1, 0x200, 0x200, 0) := by decide
/-- Log entry 2: writing what an unlisted address reads as removes the cell. -/
theorem test_memory_canonical :
    Memory.write conventionalFont 0x300 0 (Memory.write conventionalFont 0x300 5 []) = [] ∧
  Memory.write conventionalFont 0x50 0xF0 [] = [] ∧
  Memory.write conventionalFont 0x200 1 [(0x300, 5)] = [(0x200, 1), (0x300, 5)] := by decide
/-- The host's two functions on a row of the table. -/
theorem test_table_word :
    decodeTableWord 16 0x8124 = some (.addReg 1 2) ∧ decodeTableWord 16 0x812F = none := by decide

/-! ### Witnesses: the hypotheses of each obligation hold together somewhere -/

/-- A state whose next step runs a word: reset, the word at `LOW`, a quiet iteration ahead. -/
abbrev ready (w : Nat) : State := State.reset.withFetchWord 16 w

/-- A state with given inputs ahead. -/
abbrev ahead (s : State) (script : List Inputs) : State := { s with env := { s.env with script := script } }

/-- The run state after an instruction. -/
def runAfter (i : Instr) (s : State) : RunState :=
  match exec i s with
  | .next t => t.run
  | .fault _ => s.run
  | .refused _ => s.run

/-- The same bound, as something to decide. -/
def validAccess (s : State) (addr len : Nat) : Bool :=
  decide (Config.accLow s.cfg ≤ addr ∧ addr < 0x1000 ∧ addr + len ≤ 0x1000)

theorem validAccess_iff (s : State) (addr len : Nat) : validAccess s addr len = true ↔ ValidAccess s addr len := by
  simp [validAccess, ValidAccess]

theorem valid {s : State} {addr len : Nat} (h : validAccess s addr len = true) : ValidAccess s addr len :=
  (validAccess_iff s addr len).1 h

theorem not_valid {s : State} {addr len : Nat} (h : validAccess s addr len = false) : ¬ ValidAccess s addr len := by
  rw [← validAccess_iff, h]
  decide

/-- `DecodesTo` in every instruction statement: the canonical word of each row matches its row. -/
theorem witness_DecodesTo : opcodeMap.all (fun row => decide (row.pattern &&& row.mask = row.pattern)) = true := by decide

theorem witness_DecodeOfEncodeIsTheInstruction :
    [Instr.drw 15 15 15, .jp 0xFFF, .jp 0, .call 0xFFF, .ldI 0xFFF, .jpV0 0xFFF, .seImm 15 0xFF, .cls].all Instr.wf = true := by
  decide

theorem witness_OpcodeMapSelectsTheInstruction : decode 0x8124 = .ok (.addReg 1 2) := by decide

/-- A word in each clause, and a neighbour that is in none. -/
theorem witness_UnrecognizedWordsAreExactlyTheTable :
    [0x0FE1, 0x00ED, 0x8008, 0x8FFD, 0x8FFF, 0xE09D, 0xEFA2, 0xF006, 0xFF66].all
      (fun op => decide (decode op = .error (.unrecognizedOpcode op))) = true ∧
    [0x0FE0, 0x00EE, 0x8007, 0x8FFE, 0xE09E, 0xEFA1, 0xF007, 0xFF65].all
      (fun op => decide (decode op ≠ .error (.unrecognizedOpcode op))) = true := by decide

theorem witness_IgnoredBitsDoNotMatter :
    (0x0FE0 : Word) &&& 0xF0FF = 0x00E0 ∧ (0x01EE : Word) &&& 0xF0FF = 0x00EE ∧
    (0x5120 : Word) &&& 0xF000 = 0x5000 ∧ (0x5120 : Word) &&& 0xFFF0 = 0x512F &&& 0xFFF0 ∧
    (0x9120 : Word) &&& 0xF000 = 0x9000 ∧ (0x9120 : Word) &&& 0xFFF0 = 0x9121 &&& 0xFFF0 := by decide

/-- At the lowest and at the highest address a word can be fetched from. -/
theorem witness_StepRunsTheDecodedInstruction :
    ∃ s s' : State, s.executesNext = true ∧ ValidAccess s s.pc.toNat 2 ∧ s.pc = 0x200 ∧
      decode (fuse (s.peek s.pc.toNat) (s.peek (s.pc.toNat + 1))) = .ok (.addReg 1 2) ∧
      s'.executesNext = true ∧ ValidAccess s' s'.pc.toNat 2 ∧ s'.pc = 0xFFE ∧
      decode (fuse (s'.peek s'.pc.toNat) (s'.peek (s'.pc.toNat + 1))) = .ok (.addReg 1 2) :=
  ⟨ready 0x8124, State.withFetchWord { State.reset with pc := 0xFFE } 16 0x8124, by decide, valid (by decide), by decide,
    by decide, by decide, valid (by decide), by decide, by decide⟩

theorem witness_SampleLatchesTheTickBoundary :
    (ahead State.reset [{ Inputs.idle with tick := true }]).env.script = [{ Inputs.idle with tick := true }] := by decide

/-- Below the window, and at the last byte of memory. -/
theorem witness_FetchFaultKeepsPcAndBudget :
    ∃ s s' : State, s.executesNext = true ∧ s.pc = 0x1FF ∧ ¬ ValidAccess s s.pc.toNat 2 ∧
      s'.executesNext = true ∧ s'.pc = 0xFFF ∧ ¬ ValidAccess s' s'.pc.toNat 2 :=
  ⟨ahead { State.reset with pc := 0x1FF } [.idle], ahead { State.reset with pc := 0xFFF } [.idle], by decide, by decide,
    not_valid (by decide), by decide, by decide, not_valid (by decide)⟩

theorem witness_UnrecognizedOpcodeIsAFault :
    ∃ s : State, s.executesNext = true ∧ ValidAccess s s.pc.toNat 2 ∧
      (0xFF66 : Word) = fuse (s.peek s.pc.toNat) (s.peek (s.pc.toNat + 1)) ∧
      opcodeMap.all (fun row => decide ((0xFF66 : Word) &&& row.mask ≠ row.pattern)) = true :=
  ⟨ready 0xFF66, by decide, valid (by decide), by decide, by decide⟩

theorem witness_TickStepCountsBothTimersDown :
    ∃ s : State, 1 ≤ s.cfg.ipt ∧ s.ticksNext = true ∧ s.dt = 1 ∧ s.st = 0 :=
  ⟨ahead { State.reset with dt := 1, tickDue := true } [.idle], by decide, by decide, by decide, by decide⟩

theorem witness_QuitHaltsTheRun :
    ∃ s s' : State, 1 ≤ s.cfg.ipt ∧ s.run = .running ∧ s.env.upcoming.quit = true ∧
      1 ≤ s'.cfg.ipt ∧ (∃ x, s'.run = .awaitKey x) ∧ s'.env.upcoming.quit = true :=
  ⟨ahead State.reset [{ Inputs.idle with quit := true }],
    ahead { State.reset with run := .awaitKey 15 } [{ Inputs.idle with quit := true }], by decide, by decide, by decide,
    by decide, ⟨15, by decide⟩, by decide⟩

theorem witness_BudgetHoldChangesNothing :
    ∃ s : State, 1 ≤ s.cfg.ipt ∧ s.run = .running ∧ s.env.upcoming.quit = false ∧ s.sample.tickDue = false ∧
      s.cfg.ipt = s.icount :=
  ⟨ahead { State.reset with icount := 7 } [.idle], by decide, by decide, by decide, by decide, by decide⟩

/-- With an event, and without one. -/
theorem witness_KeyStepDeliversTheKey :
    ∃ s s' : State, 1 ≤ s.cfg.ipt ∧ s.run = .awaitKey 15 ∧ s.env.upcoming.quit = false ∧
      s.env.upcoming.keyEvent = some 15 ∧
      1 ≤ s'.cfg.ipt ∧ s'.run = .awaitKey 0 ∧ s'.env.upcoming.quit = false ∧ s'.env.upcoming.keyEvent = none :=
  ⟨ahead { State.reset with run := .awaitKey 15 } [{ Inputs.idle with keyEvent := some 15 }],
    ahead { State.reset with run := .awaitKey 0 } [.idle], by decide, by decide, by decide, by decide, by decide,
    by decide, by decide, by decide⟩

theorem witness_EndedRunsAreAbsorbing :
    ∃ s s' : State, 1 ≤ s.cfg.ipt ∧ s.run = .halted ∧ 1 ≤ s'.cfg.ipt ∧ s'.run = .faulted :=
  ⟨{ State.reset with run := .halted }, { State.reset with run := .faulted }, by decide, by decide, by decide, by decide⟩

theorem witness_EveryStepHasANextState :
    ∃ s s' : State, s.cfg.ipt = 1 ∧ s'.cfg.ipt = 0 :=
  ⟨State.resetWith { Config.standard with ipt := 1 } .zero, State.resetWith { Config.standard with ipt := 0 } .zero,
    by decide, by decide⟩

/-- Each instruction that can fault does so at the boundary of its check, from a state that has not faulted. -/
theorem witness_InstructionFaultsArePrecise :
    State.reset.run = .running ∧ runAfter .ret State.reset = .faulted ∧
    runAfter (.call 0x300) (withStack State.reset 16 0x202) = .faulted ∧
    runAfter (.skp 1) (start [(1, 0x10)] 0) = .faulted ∧ runAfter (.sknp 1) (start [(1, 0x10)] 0) = .faulted ∧
    runAfter (.ldF 1) (start [(1, 0x10)] 0) = .faulted ∧ runAfter (.drw 0 0 2) (start [] 0xFFF) = .faulted ∧
    runAfter (.drw 0 0 0) (start [] 0x1FF) = .faulted ∧ runAfter (.ldB 0) (start [] 0xFFE) = .faulted ∧
    runAfter (.ldMemVx 1) (start [] 0xFFF) = .faulted ∧ runAfter (.ldVxMem 1) (start [] 0xFFF) = .faulted := by decide

/-- A state that is not reset, with a live stack entry at the lower bound, has the invariant, and its step completes. -/
theorem witness_StepKeepsTheInvariant :
    ∃ s t : State, s.Inv ∧ s.sp = 1 ∧ step s = .next t := by
  refine ⟨withStack (ready 0x00EE) 1 0x202, _, ⟨by decide, by decide, by decide, by decide, by decide, by decide, by decide, ?_⟩,
    rfl, rfl⟩
  intro j hj
  have h0 : j.val = 0 := by
    have : j.val < 1 := hj
    omega
  have : j = 0 := Fin.ext h0
  subst this
  decide

/-- For each clause an instruction that changes the piece of state. -/
theorem witness_OnlyTheListedInstructionsWrite :
    (∃ t, exec (.ldI 0x300) State.reset = .next t ∧ t.i ≠ State.reset.i) ∧
    (∃ t, exec (.jp 0x300) State.reset = .next t ∧ t.pc ≠ State.reset.pc) ∧
    (∃ t, exec (.ldDtVx 1) (start [(1, 5)] 0) = .next t ∧ t.dt ≠ (start [(1, 5)] 0).dt) ∧
    (∃ t, exec (.ldStVx 1) (start [(1, 5)] 0) = .next t ∧ t.st ≠ (start [(1, 5)] 0).st) ∧
    (∃ t, exec (.call 0x300) State.reset = .next t ∧ t.sp ≠ State.reset.sp) ∧
    (∃ t, exec (.ldB 1) (start [(1, 5)] 0x300) = .next t ∧ t.mem ≠ (start [(1, 5)] 0x300).mem) ∧
    (∃ t, exec .cls { State.reset with fb := Vector.replicate 256 1 } = .next t ∧ t.fb ≠ Vector.replicate 256 1) :=
  ⟨⟨_, rfl, by decide⟩, ⟨_, rfl, by decide⟩, ⟨_, rfl, by decide⟩, ⟨_, rfl, by decide⟩, ⟨_, rfl, by decide⟩,
    ⟨_, rfl, by decide⟩, ⟨_, rfl, by decide +kernel⟩⟩

theorem witness_RegistersChangeOnlyAsDestinationOrFlag :
    (∃ t, exec (.ldImm 15 0xFF) State.reset = .next t ∧ t.getV 15 ≠ State.reset.getV 15) ∧
    (∃ t, exec (.sub 0 1) State.reset = .next t ∧ t.getV 15 ≠ State.reset.getV 15 ∧ t.run ≠ .faulted) ∧
    (∃ t, exec (.ldVxDt 0) { State.reset with dt := 1 } = .next t ∧ t.getV 0 ≠ State.reset.getV 0) ∧
    (∃ t, exec (.ldVxMem 15) ((start [] 0xFF0).pokeBytes 0xFFF [1]) = .next t ∧ t.getV 15 ≠ State.reset.getV 15) :=
  ⟨⟨_, rfl, by decide⟩, ⟨_, rfl, by decide, by decide⟩, ⟨_, rfl, by decide⟩, ⟨_, rfl, by decide⟩⟩

theorem witness_RandomByteReachesOnlyRnd :
    (∀ x kk, Instr.skp 1 ≠ .rnd x kk) ∧ ∃ t, exec (.skp 1) State.reset = .next t :=
  ⟨fun _ _ => by simp, _, rfl⟩

theorem witness_SoundTimerIsNeverRead : ∃ t, exec (.ldVxDt 1) { State.reset with st := 3, dt := 4 } = .next t := ⟨_, rfl⟩

/-- The first and the last byte of the window, and the bytes beside them. -/
theorem witness_ByteWriteIsReadBack :
    State.reset.memOk ∧ ValidAccess State.reset 0x200 1 ∧ ValidAccess State.reset 0xFFF 1 ∧
    ¬ ValidAccess State.reset 0x1FF 1 ∧ ¬ ValidAccess State.reset 0x1000 1 :=
  ⟨by decide, valid (by decide), valid (by decide), not_valid (by decide), not_valid (by decide)⟩

theorem witness_FetchIsBigEndianAndSeesStores :
    State.reset.memOk ∧ ValidAccess State.reset 0x200 2 ∧ ValidAccess State.reset 0xFFE 2 ∧
    Config.accLow State.reset.cfg ≤ 0xFFE ∧ 0xFFE + 1 < 0x1000 ∧ ¬ (Config.accLow State.reset.cfg ≤ 0x1FF) :=
  ⟨by decide, valid (by decide), valid (by decide), by decide, by decide, by decide⟩

/-- The longest sequence at the highest base, one byte higher, and the empty sequence, whose base is still checked. -/
theorem witness_SequenceWriteIsReadBack :
    State.reset.memOk ∧ ValidAccess State.reset 0xFF0 16 ∧ ¬ ValidAccess State.reset 0xFF1 16 ∧
    ValidAccess State.reset 0xFFF 0 ∧ ¬ ValidAccess State.reset 0x1000 0 ∧ ¬ ValidAccess State.reset 0x1FF 0 :=
  ⟨by decide, valid (by decide), not_valid (by decide), valid (by decide), not_valid (by decide), not_valid (by decide)⟩

/-- Each clause at its bounds: below and at `LOW`, at the last bytes of memory, at `0x1000`, a range that passes `0x1000` from
a valid base and one that ends at it, and the empty range at either side. -/
theorem witness_BoundaryAddressesFaultOrNot :
    State.reset.cfg.accBound = .low ∧ (0x1FF : Word).toNat < State.reset.cfg.low.addr ∧
    (0x200 : Word).toNat = State.reset.cfg.low.addr ∧ (0x201 : Word).toNat = State.reset.cfg.low.addr + 1 ∧
    0x1000 ≤ (0x1000 : Word).toNat ∧ 0x1000 < (0xFFF : Word).toNat + 2 ∧ ¬ 0x1000 < (0xFFE : Word).toNat + 2 ∧
    0x1000 < (0xFFD : Word).toNat + 4 ∧ ¬ 0x1000 < (0xFFD : Word).toNat + 3 ∧
    ((0xFFD : Word).toNat ∈ [State.reset.cfg.low.addr, State.reset.cfg.low.addr + 1, 0xFFD, 0xFFE]) ∧
    ((0xFFE : Word).toNat ∈ [State.reset.cfg.low.addr, State.reset.cfg.low.addr + 1, 0xFFD, 0xFFE]) ∧
    ((0xFFF : Word).toNat ∈ [State.reset.cfg.low.addr, State.reset.cfg.low.addr + 1, 0xFFD, 0xFFE, 0xFFF]) ∧
    (0xFFF : Word).toNat ∉ [State.reset.cfg.low.addr, State.reset.cfg.low.addr + 1, 0xFFD, 0xFFE] := by decide

/-- What the accesses do at those addresses: a byte at `0xFFD`, `0xFFE`, `0xFFF` is read; a word at `0xFFE` and not at
`0xFFF`; three bytes at `0xFFD` and not four; no bytes at `0xFFF` and not at `0x1000` or below `LOW`. -/
theorem test_boundary_accesses :
    [(0xFFD, 1), (0xFFE, 1), (0xFFF, 1), (0xFFD, 3), (0xFFF, 0), (0x200, 1)].all
      (fun p : Word × Nat => (State.reset.memReadSeq p.1 p.2).toBool) = true ∧
    [(0xFFF, 2), (0xFFD, 4), (0x1000, 0), (0x1FF, 0), (0x1FF, 1)].all
      (fun p : Word × Nat => !(State.reset.memReadSeq p.1 p.2).toBool) = true ∧
    (State.reset.fetchWord 0xFFE).toBool = true ∧ (State.reset.fetchWord 0xFFF).toBool = false := by decide

/-- The smallest legal budget, with both bounds at their other value. -/
theorem witness_ResetHasTheInvariant :
    1 ≤ { Config.standard with low := .alternate, accBound := .zero, ipt := 1 }.ipt := by decide

/-- Inside and at the ends of the font, and beside it. -/
theorem witness_ResetLeavesTheTableOfValues :
    0x50 ≤ 0x50 ∧ 0x50 < 0xA0 ∧ 0x50 ≤ 0x9F ∧ 0x9F < 0xA0 ∧ 0x4F < 0x50 ∧ 0xA0 ≤ 0xA0 := by decide

theorem witness_MemoriesThatReadAlikeAreEqual :
    Memory.wf conventionalFont [(0x200, 1), (0xFFF, 2)] = true ∧ Memory.wf conventionalFont [(0xFFF, 0)] = false := by decide

/-- The longest image that fits, and one byte more. -/
theorem witness_LoaderAndDumpMoveTheImage :
    State.reset.memOk ∧ State.reset.cfg.low.addr + (List.replicate 0xE00 (0 : Byte)).length = 0x1000 ∧
    0x1000 < State.reset.cfg.low.addr + (List.replicate 0xE01 (0 : Byte)).length := by
  rw [List.length_replicate, List.length_replicate]
  decide

theorem witness_RetPopsAndJumps : 0 < (withStack State.reset 1 0x202).sp.val ∧ State.reset.sp.val = 0 := by decide

theorem witness_CallPushesAndJumps :
    (withStack State.reset 15 0x202).sp.val < 16 ∧ (withStack State.reset 16 0x202).sp.val = 16 := by decide

theorem witness_RetAfterCallResumes : (withStack State.reset 15 0x202).sp.val < 16 := by decide

theorem witness_FlagIsWrittenAfterTheResult :
    (∃ t, exec (.addReg flagReg 1) State.reset = .next t) ∧ (∃ t, exec (.sub flagReg 1) State.reset = .next t) ∧
    (∃ t, exec (.subn flagReg 1) State.reset = .next t) ∧ (∃ t, exec (.shr flagReg 1) State.reset = .next t) ∧
    (∃ t, exec (.shl flagReg 1) State.reset = .next t) ∧ (1 : RegIdx) ≠ flagReg ∧
    (∃ t, exec (.addReg 1 flagReg) State.reset = .next t) ∧ (∃ t, exec (.sub 1 flagReg) State.reset = .next t) ∧
    ∃ t, exec (.subn 1 flagReg) State.reset = .next t :=
  ⟨⟨_, rfl⟩, ⟨_, rfl⟩, ⟨_, rfl⟩, ⟨_, rfl⟩, ⟨_, rfl⟩, by decide, ⟨_, rfl⟩, ⟨_, rfl⟩, ⟨_, rfl⟩⟩

theorem witness_RndMasksTheRandomByte :
    (∃ t, exec (.rnd 3 0x0F) State.reset = .next t) ∧ (0x0F : Byte).getLsbD 7 = false := ⟨⟨_, rfl⟩, by decide⟩

theorem witness_FontAddressOrInvalidDigit :
    ((start [(1, 0x0F)] 0).getV 1).toNat ≤ 0xF ∧ 0xF < ((start [(1, 0x10)] 0).getV 1).toNat := by decide

theorem witness_BcdStoresThreeDigits :
    (start [] 0xFFD).memOk ∧ ValidAccess (start [] 0xFFD) (start [] 0xFFD).i.toNat 3 ∧
    ¬ ValidAccess (start [] 0xFFE) (start [] 0xFFE).i.toNat 3 :=
  ⟨by decide, valid (by decide), not_valid (by decide)⟩

theorem witness_StoreRegistersWritesTheBlock :
    (start [] 0xFF0).memOk ∧ ValidAccess (start [] 0xFF0) (start [] 0xFF0).i.toNat ((15 : RegIdx).val + 1) ∧
    ¬ ValidAccess (start [] 0xFF1) (start [] 0xFF1).i.toNat ((15 : RegIdx).val + 1) :=
  ⟨by decide, valid (by decide), not_valid (by decide)⟩

theorem witness_LoadRegistersReadsTheBlock :
    ValidAccess (start [] 0xFFF) (start [] 0xFFF).i.toNat ((0 : RegIdx).val + 1) ∧
    ¬ ValidAccess (start [] 0x1FF) (start [] 0x1FF).i.toNat ((0 : RegIdx).val + 1) ∧
    (14 : RegIdx) < 15 ∧ (14 : RegIdx) ≤ 14 :=
  ⟨valid (by decide), not_valid (by decide), by decide, by decide⟩

theorem witness_StoreThenLoadRestoresRegisters :
    (start [] 0x200).memOk ∧ ValidAccess (start [] 0x200) (start [] 0x200).i.toNat ((15 : RegIdx).val + 1) :=
  ⟨by decide, valid (by decide)⟩

theorem witness_FontIsOutOfReach :
    ∃ t, State.reset.cfg.accBound = .low ∧ exec (.ldF 1) (start [(1, 0x0F)] 0) = .next t ∧ t.run ≠ .faulted :=
  ⟨_, by decide, rfl, by decide⟩

theorem witness_DrawTogglesTheSpritePixels :
    15 < 16 ∧ ValidAccess (start [] 0xFF1) (start [] 0xFF1).i.toNat 15 ∧
    ¬ ValidAccess (start [] 0xFF2) (start [] 0xFF2).i.toNat 15 ∧
    ValidAccess (start [] 0xFFF) (start [] 0xFFF).i.toNat 0 ∧ ¬ ValidAccess (start [] 0x1000) (start [] 0x1000).i.toNat 0 :=
  ⟨by decide, valid (by decide), not_valid (by decide), valid (by decide), not_valid (by decide)⟩

/-- A draw that leaves its coordinate registers, with `VF` as both, and one with other registers. -/
theorem witness_DrawingTwiceRestoresTheDisplay :
    15 < 16 ∧ ValidAccess (start [] 0xFF1) (start [] 0xFF1).i.toNat 15 ∧
    (∃ t, exec (.drw flagReg flagReg 15) (start [] 0xFF1) = .next t ∧ t.getV flagReg = (start [] 0xFF1).getV flagReg) ∧
    (∃ t, exec (.drw 14 0 15) (start [] 0xFF1) = .next t ∧ t.getV 14 = (start [] 0xFF1).getV 14 ∧
      t.getV 0 = (start [] 0xFF1).getV 0) ∧ (14 : RegIdx) ≠ flagReg ∧ (0 : RegIdx) ≠ flagReg :=
  ⟨by decide, valid (by decide), ⟨_, rfl, by decide +kernel⟩, ⟨_, rfl, by decide +kernel, by decide +kernel⟩, by decide,
    by decide⟩

/-- Key F pressed, key F up, and a key that does not exist. -/
theorem witness_KeySkipsReadTheKeyState :
    ((start [(1, 0x0F)] 0).getV 1).toNat ≤ 0xF ∧ 0xF < ((start [(1, 0x10)] 0).getV 1).toNat ∧
    (0x8000 : BitVec 16).getLsbD ((start [(1, 0x0F)] 0).getV 1).toNat = true ∧
    (0x7FFF : BitVec 16).getLsbD ((start [(1, 0x0F)] 0).getV 1).toNat = false := by decide

theorem witness_KeyWaitSuspendsTheCore :
    ∃ (s : State) (script rest : List Inputs), 1 ≤ s.cfg.ipt ∧ s.run = .awaitKey 3 ∧ s.env.script = script ++ rest ∧
      script.length = 2 ∧ ∀ inp ∈ script, inp.quit = false ∧ inp.keyEvent = none :=
  ⟨ahead { State.reset with run := .awaitKey 3 } [{ Inputs.idle with tick := true }, .idle],
    [{ Inputs.idle with tick := true }, .idle], [], by decide, by decide, rfl, by decide, by decide⟩

/-- A run of one step that ticks and writes neither timer. -/
theorem witness_TimersFallByTheTickSteps :
    ∃ s t : State, Host.Core.run Sys2Proof.core 1 s = .next t ∧ tally State.writesDtNext 1 s = 0 ∧
      tally State.writesStNext 1 s = 0 ∧ tally State.ticksNext 1 s = 1 :=
  ⟨ahead { State.reset with dt := 5, st := 1, tickDue := true } [.idle], _, rfl, by decide, by decide, by decide⟩

/-- With a budget of 1: a tick, then one instruction, and no tick among them. -/
theorem witness_BudgetBoundsInstructionsBetweenTicks :
    ∃ s t : State, s.ticksNext = true ∧ step s = .next t ∧ tally State.ticksNext 2 t = 0 ∧
      tally State.executesNext 2 t = s.cfg.ipt :=
  ⟨ahead { State.resetWith { Config.standard with ipt := 1 } .zero with tickDue := true, mem := [(0x200, 0x12)] }
      [.idle, .idle, .idle], _, by decide, rfl, by decide, by decide⟩

theorem witness_OnlyInstructionStepsMoveTheProgram :
    ∃ s t : State, step s = .next t ∧ s.executesNext = false ∧ t.v ≠ s.v :=
  ⟨ahead { State.reset with run := .awaitKey 3 } [{ Inputs.idle with keyEvent := some 15 }], _, rfl, by decide, by decide⟩

end Sys2Proof.Tests
end

section
/-! Totality (R8, R199): no instruction stops the machine, so a step of a legal machine always answers a next state. The only
stop of a step is the refusal of a budget below 1 (U21). -/

namespace Sys2Proof.Machine

/-- R230: completing and taking the fault are both next states. -/
theorem orRaise_next (s : State) (r : Except FaultRecord State) : ∃ t, s.orRaise r = .next t := by
  obtain ⟨t, -, h⟩ | ⟨f, -, h⟩ := orRaise_cases s r
  · exact ⟨t, h⟩
  · exact ⟨s.raise f, h⟩

/-- R199: the nine instructions that can take a fault answer through `orRaise`, the others complete outright. -/
theorem exec_next (i : Instr) (s : State) : ∃ t, exec i s = .next t := by
  cases i with
  | ret | call _ | skp _ | sknp _ | ldF _ | drw _ _ _ | ldB _ | ldMemVx _ | ldVxMem _ => exact orRaise_next s _
  | _ => exact ⟨_, rfl⟩

/-- R194: a faulting fetch and an unrecognized word are next states too. -/
theorem instructionStep_next (s : State) : ∃ t, s.instructionStep = .next t := by
  obtain ⟨-, h⟩ | ⟨-, op, -, ⟨-, h⟩ | ⟨i, -, -, h⟩⟩ := instructionStep_cases s
  · exact ⟨_, h⟩
  · exact ⟨_, h⟩
  · rw [h]
    exact exec_next i s.advancePastFetch

theorem step_refused_of_budget_zero {s : State} (h0 : s.cfg.ipt = 0) : step s = .refused .budgetBelowOne := by
  obtain ⟨-, h⟩ | ⟨hne, -⟩ := step_cases s
  · exact h
  · exact absurd h0 hne

theorem step_next_of_budget_pos {s : State} (hpos : 1 ≤ s.cfg.ipt) : ∃ t, step s = .next t := by
  obtain ⟨h0, -⟩ | ⟨-, ⟨-, ended⟩ | ⟨-, -, quit⟩ | ⟨_, -, -, await⟩ | ⟨-, tick⟩ | ⟨-, -, -, -, hold⟩ | ⟨-, instruction⟩⟩ :=
    step_cases s
  · omega
  · exact ⟨_, ended⟩
  · exact ⟨_, quit⟩
  · exact ⟨_, await⟩
  · exact ⟨_, tick⟩
  · exact ⟨_, hold⟩
  · rw [instruction]
    exact instructionStep_next s.sample

/-- Settles O15, by the six cases of an iteration (R190): five are a next state as they stand, and an instruction step is one
because no instruction stops the machine. -/
theorem everyStepHasANextState : Obligations.EveryStepHasANextState :=
  fun _ => ⟨step_next_of_budget_pos, step_refused_of_budget_zero⟩

end Sys2Proof.Machine
end

section
/-! The invariant (R23, R29, R31, R32, R101, R197): each update of the state keeps it under the guard the machine makes
the update with, so every instruction and every step does. -/

namespace Sys2Proof.Machine

variable {s t : State}

/-! ### Updates that keep the invariant -/

/-- The fault record does not move while the run goes on or ends without a fault. -/
theorem State.Inv.setRun (h : s.Inv) (hs : s.run ≠ .faulted) {r : RunState} (hr : r ≠ .faulted) :
    State.Inv { s with run := r } :=
  { h with fault_iff := iff_of_false (hs ∘ h.fault_iff.1) hr }

theorem State.Inv.raise (h : s.Inv) (f : FaultRecord) : (s.raise f).Inv :=
  { h with
    fault_iff := iff_of_true rfl rfl
    info_zero := fun hf => nomatch hf }

theorem State.Inv.sample (h : s.Inv) : s.sample.Inv := { h with }

theorem State.Inv.setV (h : s.Inv) (x : RegIdx) (b : Byte) : (s.setV x b).Inv := { h with }

theorem State.Inv.setResultThenFlag (h : s.Inv) (x : RegIdx) (b : Byte) (f : Bool) : (s.setResultThenFlag x b f).Inv :=
  (h.setV x b).setV flagReg (flagByte f)

theorem State.Inv.setI (h : s.Inv) (w : Word) : (s.setI w).Inv := { h with }

theorem State.Inv.setDt (h : s.Inv) (b : Byte) : (s.setDt b).Inv := { h with }

theorem State.Inv.setSt (h : s.Inv) (b : Byte) : (s.setSt b).Inv := { h with audio_eq := rfl }

theorem State.Inv.setFb (h : s.Inv) (fb : Vector Byte 256) : State.Inv { s with fb := fb } := { h with }

theorem State.Inv.jumpTo (h : s.Inv) {w : Word} (hw : w.toNat ≤ 0x10FE) : (s.jumpTo w).Inv := { h with pc_le := hw }

theorem State.Inv.skipIf (h : s.Inv) (hpc : s.pc.toNat ≤ 0x1000) (c : Bool) : (s.skipIf c).Inv := by
  refine { h with pc_le := ?_ }
  rw [State.skipIf_pc]
  split
  · rw [pcPlusTwo_toNat]
    omega
  · exact h.pc_le

theorem State.Inv.pokeBytes (h : s.Inv) {a : Nat} {bs : List Byte} (hlen : a + bs.length ≤ 0x1000) :
    (s.pokeBytes a bs).Inv :=
  { h with mem_ok := wf_pokeBytes s h.mem_ok a bs hlen }

theorem State.Inv.loadRegs (h : s.Inv) (j : Nat) (bs : List Byte) : (s.loadRegs j bs).Inv := by
  rw [loadRegs_eq]
  exact { h with }

/-- R103: the entry a call pushes is a `PC` just past a valid fetch. -/
theorem State.Inv.call (h : s.Inv) (hlow : Config.accLow s.cfg + 2 ≤ s.pc.toNat) (hhigh : s.pc.toNat ≤ 0x1000)
    {a : Word} (ha : a.toNat ≤ 0x10FE) (hsp : s.sp.val < 16) :
    State.Inv { s with pc := a, stack := s.stack.set s.sp.val s.pc, sp := ⟨s.sp.val + 1, by omega⟩ } := by
  refine { h with pc_le := ha, live_entries := fun j hj => ?_ }
  dsimp only at hj ⊢
  rw [Vector.getElem_set]
  split
  · exact ⟨hlow, hhigh⟩
  · exact h.live_entries j (by omega)

/-- R101: a return goes to a live entry. -/
theorem State.Inv.ret (h : s.Inv) (hsp : 0 < s.sp.val) :
    State.Inv { s with pc := s.stack[s.sp.val - 1], sp := ⟨s.sp.val - 1, by omega⟩ } := by
  obtain ⟨-, htop⟩ := h.live_entries ⟨s.sp.val - 1, by omega⟩ (Nat.sub_lt hsp Nat.one_pos)
  refine { h with pc_le := htop.trans (by decide), live_entries := fun j hj => h.live_entries j ?_ }
  dsimp only at hj
  omega

theorem State.Inv.tickStep (h : s.Inv) : s.tickStep.Inv :=
  { h with
    icount_le := Nat.zero_le _
    audio_eq := rfl }

theorem State.Inv.keyStep (h : s.Inv) (hs : s.run ≠ .faulted) (x : RegIdx) (k : Key) : (s.keyStep x k).Inv :=
  (h.setV x (BitVec.ofNat 8 k.val)).setRun hs nofun

/-- Past a valid fetch `PC` does not wrap. -/
theorem advancePastFetch_pc_toNat (hv : ValidAccess s s.pc.toNat 2) :
    s.advancePastFetch.pc.toNat = s.pc.toNat + 2 := by
  obtain ⟨-, -, hend⟩ := hv
  rw [State.advancePastFetch_pc, pcPlusTwo_toNat]
  omega

theorem State.Inv.advancePastFetch (h : s.Inv) (hv : ValidAccess s s.pc.toNat 2) (hb : s.icount < s.cfg.ipt) :
    s.advancePastFetch.Inv := by
  have hpc := advancePastFetch_pc_toNat hv
  obtain ⟨-, -, hend⟩ := hv
  exact { h with icount_le := hb, pc_le := by omega }

/-! ### Instructions and steps -/

theorem addrFits_iff (a : Word) : addrFits a = true ↔ a.toNat < 0x1000 := decide_eq_true_iff

/-- R104: the largest target is `0xFFF + 0xFF`. -/
theorem addByteToWord_le {a : Word} (ha : a.toNat < 0x1000) (b : Byte) : (addByteToWord a b).toNat ≤ 0x10FE := by
  have := b.isLt
  rw [addByteToWord_toNat]
  omega

/-- An instruction of the opcode map keeps the invariant, run with `PC` just past a valid fetch (R194). -/
theorem State.Inv.of_exec {i : Instr} (h : s.Inv) (hrun : s.run ≠ .faulted)
    (hlow : Config.accLow s.cfg + 2 ≤ s.pc.toNat) (hhigh : s.pc.toNat ≤ 0x1000) (hwf : i.wf = true)
    (he : exec i s = .next t) : t.Inv := by
  have hc := exec_cases he
  cases i with
  | cls => exact hc ▸ h.setFb _
  | ret =>
    obtain ⟨hsp, rfl⟩ | ⟨-, rfl⟩ := hc
    · exact h.ret hsp
    · exact h.raise _
  | jp a =>
    have ha := (addrFits_iff a).1 hwf
    exact hc ▸ h.jumpTo (by omega)
  | call a =>
    have ha := (addrFits_iff a).1 hwf
    obtain ⟨hsp, rfl⟩ | ⟨-, rfl⟩ := hc
    · exact h.call hlow hhigh (by omega) hsp
    · exact h.raise _
  | jpV0 a => exact hc ▸ h.jumpTo (addByteToWord_le ((addrFits_iff a).1 hwf) _)
  | seImm _ _ | sneImm _ _ | seReg _ _ | sneReg _ _ =>
    obtain ⟨c, rfl⟩ := hc
    exact h.skipIf hhigh c
  | skp _ | sknp _ =>
    obtain ⟨-, c, rfl⟩ | ⟨-, rfl⟩ := hc
    · exact h.skipIf hhigh c
    · exact h.raise _
  | ldImm x _ | addImm x _ | ldReg x _ | orReg x _ | andReg x _ | xorReg x _ | rnd x _ | ldVxDt x =>
    obtain ⟨b, rfl⟩ := hc
    exact h.setV x b
  | addReg x _ | sub x _ | subn x _ | shr x _ | shl x _ =>
    obtain ⟨b, f, rfl⟩ := hc
    exact h.setResultThenFlag x b f
  | ldI _ | addI _ => exact hc ▸ h.setI _
  | ldF _ =>
    obtain ⟨-, rfl⟩ | ⟨-, rfl⟩ := hc
    · exact h.setI _
    · exact h.raise _
  | drw _ _ _ =>
    obtain ⟨-, fb, f, rfl⟩ | ⟨-, rfl⟩ := hc
    · exact (h.setFb fb).setV flagReg (flagByte f)
    · exact h.raise _
  | ldB _ =>
    obtain ⟨⟨-, -, hend⟩, rfl⟩ | ⟨-, rfl⟩ := hc
    · exact h.pokeBytes hend
    · exact h.raise _
  | ldMemVx _ =>
    obtain ⟨⟨-, -, hend⟩, rfl⟩ | ⟨-, rfl⟩ := hc
    · exact h.pokeBytes (by rwa [lowRegs_length])
    · exact h.raise _
  | ldVxMem _ =>
    obtain ⟨-, bs, -, rfl⟩ | ⟨-, rfl⟩ := hc
    · exact h.loadRegs 0 bs
    · exact h.raise _
  | ldVxK x => exact hc ▸ h.setRun hrun nofun
  | ldDtVx _ => exact hc ▸ h.setDt _
  | ldStVx _ => exact hc ▸ h.setSt _

theorem State.Inv.of_instructionStep (h : s.Inv) (hrun : s.run ≠ .faulted) (hb : s.icount < s.cfg.ipt)
    (hs : s.instructionStep = .next t) : t.Inv := by
  obtain ⟨-, fetchFault⟩ | ⟨hok, op, -, ⟨-, unrecognized⟩ | ⟨i, -, hwf, runs⟩⟩ := instructionStep_cases s
  · obtain rfl := Host.Outcome.next.inj (fetchFault.symm.trans hs)
    exact h.raise _
  · obtain rfl := Host.Outcome.next.inj (unrecognized.symm.trans hs)
    exact (h.advancePastFetch ((accessOk_iff_valid _ _ _).1 hok) hb).raise _
  · have hv := (accessOk_iff_valid s s.pc 2).1 hok
    have hadv := h.advancePastFetch hv hb
    have hpc := advancePastFetch_pc_toNat hv
    obtain ⟨hlow, -, hend⟩ := hv
    exact hadv.of_exec hrun (hpc ▸ Nat.add_le_add_right hlow 2) (hpc ▸ hend) hwf (runs.symm.trans hs)

theorem RunState.ne_faulted_of_not_ended {r : RunState} (h : r.ended = false) : r ≠ .faulted := by
  rintro rfl
  cases h

/-- Settles O19, by the six cases of a step (R190): each is the sample, followed by an update that keeps the
invariant. -/
theorem stepKeepsTheInvariant : Obligations.StepKeepsTheInvariant := by
  intro s t h hstep
  obtain ⟨-, ⟨-, rfl⟩ | ⟨hrun, -, rfl⟩ | ⟨x, hrun, -, rfl⟩ | ⟨-, rfl⟩ | ⟨-, -, -, -, rfl⟩ | ⟨hexec, hinstr⟩⟩ :=
    step_next_cases hstep
  · exact h.sample
  · exact h.sample.setRun (RunState.ne_faulted_of_not_ended hrun) nofun
  · obtain ⟨k, -, key⟩ | ⟨-, hold⟩ := awaitIteration_cases s.sample x
    · rw [key]
      exact h.sample.keyStep (by simp [hrun]) x k
    · rw [hold]
      exact h.sample
  · exact h.sample.tickStep
  · exact h.sample
  · obtain ⟨hrun, -, -, hb⟩ := executesNext_iff.1 hexec
    exact h.sample.of_instructionStep (by simp [hrun]) hb hinstr

end Sys2Proof.Machine
end

section
/-! The reset state (R4, R37): what it holds, and that it meets the invariant. -/

namespace Sys2Proof.Machine

section
variable (c : Config) (r : ResetValues)

/-- R37, R52: memory lists nothing right after reset, so the font reads in its place. -/
theorem resetWith_peek_font {a : Nat} (hlow : 0x50 ≤ a) (hhigh : a < 0xA0) :
    (State.resetWith c r).peek a = c.font[a - 0x50] := dif_pos ⟨hlow, hhigh⟩

theorem resetWith_peek_zero {a : Nat} (h : a < 0x50 ∨ 0xA0 ≤ a) : (State.resetWith c r).peek a = 0 :=
  dif_neg (by omega)

theorem resetWith_getV (x : RegIdx) : (State.resetWith c r).getV x = r.v := by
  simp [State.resetWith, State.getV]

theorem resetWith_pc_toNat : (State.resetWith c r).pc.toNat = c.low.addr := by
  have := low_addr_cases c.low
  simp only [State.resetWith, BitVec.toNat_ofNat]
  omega

theorem resetWith_audioOn_iff : (State.resetWith c r).audioOn = true ↔ r.st ≠ 0 := bne_iff_ne

end

theorem reset_fb_getElem (j : Fin 256) : State.reset.fb[j.val] = 0 := by
  simp [State.reset, State.resetWith, ResetValues.zero]

/-- Settles O17: what no lemma above states is a field of `State.resetWith` at its parameter, or of the values of R4. -/
theorem resetLeavesTheTableOfValues : Obligations.ResetLeavesTheTableOfValues :=
  ⟨fun c r => ⟨rfl, fun _ => resetWith_peek_font c r, fun _ => resetWith_peek_zero c r, resetWith_getV c r, rfl,
      rfl, rfl, resetWith_pc_toNat c r, rfl, rfl, rfl, rfl, resetWith_audioOn_iff c r, rfl, rfl, rfl, rfl⟩,
    rfl, rfl, rfl, rfl, rfl, rfl, rfl, resetWith_getV .standard .zero, rfl, rfl, rfl, rfl, reset_fb_getElem, rfl⟩

/-- R37: reset meets the invariant, whatever the parameters and the reset values: the stack and memory list nothing, and
`PC` is one of the two values of `LOW`. -/
theorem State.Inv.resetWith {c : Config} (hc : 1 ≤ c.ipt) (r : ResetValues) : (State.resetWith c r).Inv where
  budget_pos := hc
  mem_ok := rfl
  icount_le := Nat.zero_le _
  fault_iff := by simp [State.resetWith]
  info_zero := fun _ => rfl
  audio_eq := rfl
  pc_le := by
    have := low_addr_cases c.low
    rw [resetWith_pc_toNat]
    omega
  live_entries := fun _ hj => absurd hj (Nat.not_lt_zero _)

/-- Settles O18: `IPT` is 7 in the values of R4. -/
theorem resetHasTheInvariant : Obligations.ResetHasTheInvariant :=
  ⟨State.Inv.resetWith (by decide) .zero, fun _ r hc => State.Inv.resetWith hc r⟩

end Sys2Proof.Machine
end

section
/-! Ended runs (R28, R232): a step from one is the environment's sample and nothing else. -/

namespace Sys2Proof.Machine

theorem RunState.ended_of_halted_or_faulted {r : RunState} (h : r = .halted ∨ r = .faulted) : r.ended = true := by
  obtain rfl | rfl := h <;> rfl

/-- R28: from an ended run each step is the environment's sample alone. -/
theorem run_of_ended (n : Nat) {s : State} (hpos : 1 ≤ s.cfg.ipt) (he : s.run.ended = true) :
    ∃ t, Host.Core.run Sys2Proof.core n s = .next t ∧ t = { s with tickDue := t.tickDue, env := t.env } := by
  induction n generalizing s with
  | zero => exact ⟨s, rfl, rfl⟩
  | succ n ih =>
    obtain ⟨t, hrun, ht⟩ := ih (s := s.sample) hpos he
    exact ⟨t, (run_succ_of_next (step_of_ended hpos he)).trans hrun, ht⟩

/-- Settles O14, by induction on the number of steps; the exit status is read off the run state, which stays. -/
theorem endedRunsAreAbsorbing : Obligations.EndedRunsAreAbsorbing := by
  intro n s hpos hended
  obtain ⟨t, hrun, ht⟩ := run_of_ended n hpos (RunState.ended_of_halted_or_faulted hended)
  exact ⟨t, hrun, ht, (congrArg State.exitStatus ht).trans rfl⟩

end Sys2Proof.Machine
end

section
/-! What an instruction writes and reads: the access summary (R36), the registers (R20, R21), a return after a
call (R26) and the sound timer (R25, R31). -/

namespace Sys2Proof.Machine

variable {s t : State} {i : Instr}

/-! ### Who writes what -/

/-- Settles O20: each update an instruction can make (`exec_cases`) moves, field by field, only what R36 lists;
a fault moves none of it (R230). -/
theorem onlyTheListedInstructionsWrite : Obligations.OnlyTheListedInstructionsWrite := by
  intro i s t h
  have hc := exec_cases h
  cases i with
  | cls | jp _ | jpV0 _ | ldI _ | addI _ | ldVxK _ | ldDtVx _ | ldStVx _ =>
    obtain rfl : t = _ := hc
    simp
  | seImm _ _ | sneImm _ _ | seReg _ _ | sneReg _ _ =>
    obtain ⟨_, rfl⟩ := hc
    simp
  | ldImm _ _ | addImm _ _ | ldReg _ _ | orReg _ _ | andReg _ _ | xorReg _ _ | rnd _ _ | ldVxDt _ =>
    obtain ⟨_, rfl⟩ := hc
    simp
  | addReg _ _ | sub _ _ | subn _ _ | shr _ _ | shl _ _ =>
    obtain ⟨_, _, rfl⟩ := hc
    simp
  | ret | call _ => obtain ⟨_, rfl⟩ | ⟨-, rfl⟩ := hc <;> simp
  | skp _ | sknp _ => obtain ⟨-, _, rfl⟩ | ⟨-, rfl⟩ := hc <;> simp
  | ldF _ | ldB _ | ldMemVx _ => obtain ⟨-, rfl⟩ | ⟨-, rfl⟩ := hc <;> simp
  | drw _ _ _ => obtain ⟨-, _, _, rfl⟩ | ⟨-, rfl⟩ := hc <;> simp
  | ldVxMem _ =>
    obtain ⟨-, bs, -, rfl⟩ | ⟨-, rfl⟩ := hc
    · rw [loadRegs_eq]
      simp
    · simp

/-! ### Which registers an update changes -/

theorem eq_of_getV_setV_ne {x r : RegIdx} {b : Byte} (h : (s.setV x b).getV r ≠ s.getV r) : r = x := by
  by_contra hne
  exact h (by rw [State.getV_setV, if_neg hne])

theorem eq_or_eq_of_getV_setResultThenFlag_ne {x r : RegIdx} {b : Byte} {f : Bool}
    (h : (s.setResultThenFlag x b f).getV r ≠ s.getV r) : r = flagReg ∨ r = x := by
  by_contra! hne
  exact h (by rw [State.getV_setResultThenFlag, if_neg hne.1, if_neg hne.2])

theorem le_of_getV_loadRegs_ne {x r : RegIdx} {bs : List Byte} (hlen : bs.length = x.val + 1)
    (h : (s.loadRegs 0 bs).getV r ≠ s.getV r) : r ≤ x := by
  by_contra hlt
  rw [Fin.not_le, Fin.lt_def] at hlt
  exact h (by rw [getV_loadRegs s 0 bs (by omega), dif_neg (by omega)])

/-- R21: what an instruction that writes the flag leaves in `VF`, unless it faults. -/
theorem getV_flag_of_exec (h : exec i s = .next t) (hrun : t.run ≠ .faulted)
    (hi : ∃ x y, i = .addReg x y ∨ i = .sub x y ∨ i = .shr x y ∨ i = .subn x y ∨ i = .shl x y ∨ ∃ n, i = .drw x y n) :
    ∃ f, t.getV flagReg = flagByte f := by
  obtain ⟨x, y, rfl | rfl | rfl | rfl | rfl | ⟨n, rfl⟩⟩ := hi
  pick_goal 6
  · obtain ⟨-, _, f, rfl⟩ | ⟨-, rfl⟩ := exec_cases h
    · exact ⟨f, by simp⟩
    · exact absurd rfl hrun
  all_goals
    obtain ⟨_, f, rfl⟩ := exec_cases h
    exact ⟨f, by simp [State.getV_setResultThenFlag]⟩

/-- Settles O21: an update that writes registers (`setV`, the result and flag of R132, the flag alone, the block of
`Fx65`) changes only those; the others leave all of `V` as it was. -/
theorem registersChangeOnlyAsDestinationOrFlag : Obligations.RegistersChangeOnlyAsDestinationOrFlag := by
  refine fun i s t h => ⟨fun r hr => ?_, fun hrun hi => ?_⟩
  · have hc := exec_cases h
    cases i with
    | cls | jp _ | jpV0 _ | ldI _ | addI _ | ldVxK _ | ldDtVx _ | ldStVx _ =>
      obtain rfl : t = _ := hc
      exact absurd rfl hr
    | seImm _ _ | sneImm _ _ | seReg _ _ | sneReg _ _ =>
      obtain ⟨_, rfl⟩ := hc
      exact absurd rfl hr
    | ret | call _ => obtain ⟨_, rfl⟩ | ⟨-, rfl⟩ := hc <;> exact absurd rfl hr
    | skp _ | sknp _ => obtain ⟨-, _, rfl⟩ | ⟨-, rfl⟩ := hc <;> exact absurd rfl hr
    | ldF _ | ldB _ | ldMemVx _ => obtain ⟨-, rfl⟩ | ⟨-, rfl⟩ := hc <;> exact absurd rfl hr
    | ldImm _ _ | addImm _ _ | ldReg _ _ | orReg _ _ | andReg _ _ | xorReg _ _ | rnd _ _ | ldVxDt _ =>
      obtain ⟨b, rfl⟩ := hc
      obtain rfl := eq_of_getV_setV_ne hr
      simp
    | addReg _ _ | sub _ _ | subn _ _ | shr _ _ | shl _ _ =>
      obtain ⟨b, f, rfl⟩ := hc
      obtain rfl | rfl := eq_or_eq_of_getV_setResultThenFlag_ne hr <;> simp
    | drw _ _ _ =>
      obtain ⟨-, fb, f, rfl⟩ | ⟨-, rfl⟩ := hc
      · obtain rfl := eq_of_getV_setV_ne (s := { s with fb := fb }) hr
        simp
      · exact absurd rfl hr
    | ldVxMem x =>
      obtain ⟨-, bs, hlen, rfl⟩ | ⟨-, rfl⟩ := hc
      · simp [le_of_getV_loadRegs_ne hlen hr]
      · exact absurd rfl hr
  · obtain ⟨f, hf⟩ := getV_flag_of_exec h hrun hi
    exact hf ▸ flagByte_cases f

/-! ### Call and return -/

theorem exec_call_of_lt (addr : Word) {s : State} (h : s.sp.val < 16) : exec (.call addr) s =
    .next { s with pc := addr, stack := s.stack.set s.sp.val s.pc, sp := ⟨s.sp.val + 1, by omega⟩ } := by
  simp only [exec, execCall, push_ok s h]
  rfl

theorem exec_ret_of_pos {s : State} (h : 0 < s.sp.val) :
    exec .ret s = .next { s with pc := s.stack[s.sp.val - 1], sp := ⟨s.sp.val - 1, by omega⟩ } := by
  simp only [exec, execRet, pop_ok s h]
  rfl

/-- Settles O32: the return pops the slot the call wrote, the first above the live entries. -/
theorem retAfterCallResumes : Obligations.RetAfterCallResumes := by
  intro addr pc s hsp
  refine ⟨_, _, exec_call_of_lt addr hsp, exec_ret_of_pos (Nat.succ_pos _), ?_, rfl, ?_⟩
  · exact Vector.getElem_set_self _
  · simp only [State.liveStack, Vector.toList_set, Nat.add_sub_cancel, List.take_set_of_le (Nat.le_refl _)]

/-! ### The sound timer -/

/-- A state with other values of `ST` and `audio_on`. -/
def State.withSound (s : State) (b : Byte) (on : Bool) : State := { s with st := b, audioOn := on }

section
variable (b : Byte) (on : Bool)

theorem withSound_pc : (s.withSound b on).pc = s.pc := rfl

theorem withSound_getV (x : RegIdx) : (s.withSound b on).getV x = s.getV x := rfl

theorem withSound_i : (s.withSound b on).i = s.i := rfl

theorem pop_withSound : (s.withSound b on).pop = s.pop.map fun p => (p.1, p.2.withSound b on) := by
  by_cases h : 0 < s.sp.val
  · rw [pop_ok s h]
    exact pop_ok (s.withSound b on) h
  · rw [pop_error s h]
    exact pop_error (s.withSound b on) h

theorem push_withSound (w : Word) : (s.withSound b on).push w = (s.push w).map (State.withSound · b on) := by
  by_cases h : s.sp.val < 16
  · rw [push_ok s h]
    exact push_ok (s.withSound b on) h
  · rw [push_error s h]
    exact push_error (s.withSound b on) h

theorem memReadSeq_withSound (addr : Word) (len : Nat) :
    (s.withSound b on).memReadSeq addr len = s.memReadSeq addr len := rfl

theorem memWriteSeq_withSound (addr : Word) (bs : List Byte) :
    (s.withSound b on).memWriteSeq addr bs = (s.memWriteSeq addr bs).map (State.withSound · b on) := by
  by_cases h : Config.accessOk s.cfg addr bs.length = true
  · rw [memWriteSeq_ok s h]
    exact memWriteSeq_ok (s.withSound b on) h
  · rw [memWriteSeq_error s h]
    exact memWriteSeq_error (s.withSound b on) h

theorem loadRegs_withSound (j : Nat) (bs : List Byte) :
    (s.withSound b on).loadRegs j bs = (s.loadRegs j bs).withSound b on := by
  induction bs generalizing s j with
  | nil => rfl
  | cons c bs ih => exact ih (s := s.setV (Fin.ofNat 16 j) c) (j + 1)

variable {b on}

theorem orRaise_withSound {r r' : Except FaultRecord State} (hr : r' = r.map (State.withSound · b on))
    (h : s.orRaise r = .next t) : (s.withSound b on).orRaise r' = .next (t.withSound b on) := by
  subst hr
  obtain ⟨u, rfl, hu⟩ | ⟨f, rfl, hu⟩ := orRaise_cases s r <;>
  · obtain rfl := Host.Outcome.next.inj (hu.symm.trans h)
    rfl

/-- R25: but for `Fx18`, which sets both, an instruction carries other values of `ST` and `audio_on` through unread: the
operations behind a guard do, and the updates do by definition. -/
theorem exec_withSound (hi : ∀ x, i ≠ .ldStVx x) (h : exec i s = .next t) :
    exec i (s.withSound b on) = .next (t.withSound b on) := by
  cases i with
  | ldStVx x => exact absurd rfl (hi x)
  | ret =>
    refine orRaise_withSound ?_ h
    rw [pop_withSound]
    cases s.pop <;> rfl
  | call _ =>
    refine orRaise_withSound ?_ h
    rw [push_withSound, withSound_pc]
    cases s.push s.pc <;> rfl
  | skp _ | sknp _ | ldF _ =>
    refine orRaise_withSound ?_ h
    rw [withSound_getV]
    split <;> rfl
  | drw _ _ n =>
    refine orRaise_withSound ?_ h
    rw [memReadSeq_withSound, withSound_i]
    cases s.memReadSeq s.i n <;> rfl
  | ldB _ | ldMemVx _ => exact orRaise_withSound (memWriteSeq_withSound ..) h
  | ldVxMem x =>
    refine orRaise_withSound ?_ h
    rw [memReadSeq_withSound, withSound_i]
    cases s.memReadSeq s.i (x.val + 1) with
    | ok bs => exact congrArg Except.ok (loadRegs_withSound b on 0 bs)
    | error f => rfl
  | _ =>
    obtain rfl := Host.Outcome.next.inj h
    rfl

end

/-- Settles O23: `Fx18` overwrites both, every other instruction carries them through. -/
theorem soundTimerIsNeverRead : Obligations.SoundTimerIsNeverRead := by
  intro i s t b on h
  by_cases hi : ∃ x, i = .ldStVx x
  · obtain ⟨x, rfl⟩ := hi
    obtain rfl : t = _ := exec_cases h
    exact ⟨_, rfl, rfl⟩
  · exact ⟨t.withSound b on, exec_withSound (fun x hx => hi ⟨x, hx⟩) h, rfl⟩

end Sys2Proof.Machine
end

section
/-! Memory (R50 to R61): the checked accessors from either side of the bounds check, what they read after a write, and that
the canonical form has one list for each contents. -/

namespace Sys2Proof.Machine

/-! ### Equal contents are equal data (R50) -/

section
variable {font : Font} {m m' : Memory} {a : Nat} {v : Byte}

theorem Memory.wf_cons_iff : Memory.wf font ((a, v) :: m) = true ↔
    a < 0x1000 ∧ v ≠ Memory.background font a ∧ Memory.startsAbove a m = true ∧ Memory.wf font m = true := by
  simp [Memory.wf, and_assoc]

theorem Memory.read_cons_self : Memory.read font ((a, v) :: m) a = v := if_pos rfl

/-- No cell holds the background, so a memory that reads like a listed cell lists an address up to the cell's. -/
theorem Memory.not_startsAbove_of_read_eq (hw : Memory.wf font ((a, v) :: m) = true) (hw' : Memory.wf font m' = true)
    (h : Memory.read font ((a, v) :: m) a = Memory.read font m' a) : ¬ Memory.startsAbove a m' = true := by
  intro hs
  obtain ⟨-, hv, -, -⟩ := Memory.wf_cons_iff.1 hw
  rw [Memory.read_cons_self, Memory.read_of_startsAbove hw' hs le_rfl] at h
  exact hv h

theorem Memory.head_le_of_read_eq {b : Nat} {w : Byte} (hw : Memory.wf font ((a, v) :: m) = true)
    (hw' : Memory.wf font ((b, w) :: m') = true)
    (h : Memory.read font ((a, v) :: m) a = Memory.read font ((b, w) :: m') a) : b ≤ a := by
  simpa [Memory.startsAbove] using Memory.not_startsAbove_of_read_eq hw hw' h

/-- Behind a shared first address two memories still read alike: at that address both read as the background. -/
theorem Memory.read_tail_eq {w : Byte} (hw : Memory.wf font ((a, v) :: m) = true)
    (hw' : Memory.wf font ((a, w) :: m') = true) {c : Nat}
    (h : Memory.read font ((a, v) :: m) c = Memory.read font ((a, w) :: m') c) :
    Memory.read font m c = Memory.read font m' c := by
  obtain ⟨-, -, hs, hm⟩ := Memory.wf_cons_iff.1 hw
  obtain ⟨-, -, hs', hm'⟩ := Memory.wf_cons_iff.1 hw'
  by_cases hc : c = a
  · rw [Memory.read_of_startsAbove hm hs hc.le, Memory.read_of_startsAbove hm' hs' hc.le]
  · rwa [Memory.read_cons, Memory.read_cons, if_neg hc, if_neg hc] at h

/-- Settles O28, by induction on the cells: two first cells have one address, for else the lower one reads as the
background in the other memory. -/
theorem memoriesThatReadAlikeAreEqual : Obligations.MemoriesThatReadAlikeAreEqual := by
  intro font m m' hw hw' h
  induction m generalizing m' with
  | nil =>
    cases m' with
    | nil => rfl
    | cons cell _ =>
      obtain ⟨hb, -⟩ := Memory.wf_cons_iff.1 hw'
      exact absurd rfl (Memory.not_startsAbove_of_read_eq hw' hw (h cell.1 hb).symm)
  | cons cell m ih =>
    obtain ⟨a, v⟩ := cell
    obtain ⟨ha, -, -, hm⟩ := Memory.wf_cons_iff.1 hw
    cases m' with
    | nil => exact absurd rfl (Memory.not_startsAbove_of_read_eq hw hw' (h a ha))
    | cons cell' m' =>
      obtain ⟨b, w⟩ := cell'
      obtain ⟨hb, -, -, hm'⟩ := Memory.wf_cons_iff.1 hw'
      obtain rfl : a = b :=
        le_antisymm (Memory.head_le_of_read_eq hw' hw (h b hb).symm) (Memory.head_le_of_read_eq hw hw' (h a ha))
      obtain rfl : v = w := by simpa only [Memory.read_cons_self] using h a ha
      rw [ih m' hm hm' fun c hc => Memory.read_tail_eq hw hw' (h c hc)]

end

/-! ### The accessors on a valid access and on any other (R53 to R58) -/

section
variable {s : State} {addr : Word} {a len : Nat} {bs : List Byte}

theorem memRead_of_valid (h : ValidAccess s addr.toNat 1) : s.memRead addr = .ok (s.peek addr.toNat) :=
  if_pos ((accessOk_iff_valid s addr 1).2 h)

theorem memRead_of_not_valid (h : ¬ ValidAccess s addr.toNat 1) : s.memRead addr = .error (outOfRange addr) :=
  if_neg (accessOk_ne_of_not_valid h)

theorem memWrite_of_valid (b : Byte) (h : ValidAccess s addr.toNat 1) :
    s.memWrite addr b = .ok (s.pokeBytes addr.toNat [b]) :=
  if_pos ((accessOk_iff_valid s addr 1).2 h)

theorem memWrite_of_not_valid (b : Byte) (h : ¬ ValidAccess s addr.toNat 1) :
    s.memWrite addr b = .error (outOfRange addr) :=
  if_neg (accessOk_ne_of_not_valid h)

theorem fetchWord_of_valid (h : ValidAccess s addr.toNat 2) :
    s.fetchWord addr = .ok (fuse (s.peek addr.toNat) (s.peek (addr.toNat + 1))) :=
  fetchWord_ok s ((accessOk_iff_valid s addr 2).2 h)

theorem fetchWord_of_not_valid (h : ¬ ValidAccess s addr.toNat 2) : s.fetchWord addr = .error (outOfRange addr) :=
  fetchWord_error s (accessOk_ne_of_not_valid h)

theorem memReadSeq_of_not_valid (h : ¬ ValidAccess s addr.toNat len) :
    s.memReadSeq addr len = .error (outOfRange addr) :=
  memReadSeq_error s (accessOk_ne_of_not_valid h)

theorem memWriteSeq_of_not_valid (h : ¬ ValidAccess s addr.toNat bs.length) :
    s.memWriteSeq addr bs = .error (outOfRange addr) :=
  memWriteSeq_error s (accessOk_ne_of_not_valid h)

/-- R56: both bytes of the word lie in the window. -/
theorem validAccess_two_iff : ValidAccess s a 2 ↔ Config.accLow s.cfg ≤ a ∧ a + 1 < 0x1000 := by
  unfold ValidAccess
  omega

/-! ### What is read after a write -/

theorem peek_pokeBytes_singleton (hw : s.memOk) (a : Nat) (b : Byte) (c : Nat) :
    (s.pokeBytes a [b]).peek c = if c = a then b else s.peek c :=
  Memory.read_write hw a b c

/-- Settles O24: a valid write moves the memory only, and there the one byte it names. -/
theorem byteWriteIsReadBack : Obligations.ByteWriteIsReadBack := by
  intro s addr b hw
  refine ⟨fun hv => ⟨memRead_of_valid hv, _, memWrite_of_valid b hv, ?_, ?_, rfl⟩,
    fun hv => ⟨memWrite_of_not_valid b hv, memRead_of_not_valid hv⟩⟩
  · rw [memRead_of_valid (s := s.pokeBytes addr.toNat [b]) hv, peek_pokeBytes_singleton hw, if_pos rfl]
  · intro a ha
    rw [peek_pokeBytes_singleton hw, if_neg ha]

/-- R61: the high byte of the word is the one at the lower address. -/
theorem fetchWord_toNat (h : ValidAccess s addr.toNat 2) : ∃ w, s.fetchWord addr = .ok w ∧
    w.toNat = (s.peek addr.toNat).toNat * 256 + (s.peek (addr.toNat + 1)).toNat :=
  ⟨_, fetchWord_of_valid h, fuse_toNat _ _⟩

/-- A fetch after a byte write: the address decides whether the byte is seen, and as which half. -/
theorem fetchWord_pokeBytes_singleton (hw : s.memOk) (h : ValidAccess s addr.toNat 2) (a : Nat) (b : Byte) :
    ∃ w, (s.pokeBytes a [b]).fetchWord addr = .ok w ∧
      w.toNat = (if addr.toNat = a then b else s.peek addr.toNat).toNat * 256 +
        (if addr.toNat + 1 = a then b else s.peek (addr.toNat + 1)).toNat := by
  simpa only [peek_pokeBytes_singleton hw] using fetchWord_toNat (s := s.pokeBytes a [b]) h

/-- Settles O25: the store to the high byte leaves the low one, and the other way round. -/
theorem fetchIsBigEndianAndSeesStores : Obligations.FetchIsBigEndianAndSeesStores := by
  refine ⟨fun s addr => ⟨fun hlow hend => fetchWord_toNat (validAccess_two_iff.2 ⟨hlow, hend⟩),
    fun h => fetchWord_of_not_valid (h ∘ validAccess_two_iff.1)⟩, fun s addr b hw hv => ?_⟩
  obtain ⟨hlow, hend⟩ := validAccess_two_iff.1 hv
  constructor
  · obtain ⟨w, hfetch, hval⟩ := fetchWord_pokeBytes_singleton hw hv addr.toNat b
    rw [if_pos rfl, if_neg (Nat.succ_ne_self _)] at hval
    exact ⟨_, w, memWrite_of_valid b ⟨hlow, by omega, by omega⟩, hfetch, hval⟩
  · have hnext : (addr + 1).toNat = addr.toNat + 1 := BitVec.toNat_add_of_lt (show addr.toNat + 1 < 65536 by omega)
    obtain ⟨w, hfetch, hval⟩ := fetchWord_pokeBytes_singleton hw hv (addr + 1).toNat b
    rw [if_neg (by omega), if_pos hnext.symm] at hval
    exact ⟨_, w, memWrite_of_valid b ⟨by omega, by omega, by omega⟩, hfetch, hval⟩

/-- R57: the bytes in address order. -/
theorem memReadSeq_of_valid (h : ValidAccess s addr.toNat len) : ∃ bs, s.memReadSeq addr len = .ok bs ∧
    bs.length = len ∧ ∀ j, (hj : j < bs.length) → bs[j] = s.peek (addr.toNat + j) :=
  ⟨_, memReadSeq_ok s ((accessOk_iff_valid s addr len).2 h), by simp, fun j hj => by simp⟩

/-- Settles O26: a read of the written range answers, byte for byte, what was written. -/
theorem sequenceWriteIsReadBack : Obligations.SequenceWriteIsReadBack := by
  refine ⟨fun s addr len => ⟨memReadSeq_of_valid, memReadSeq_of_not_valid⟩,
    fun s addr bs hw => ⟨fun hv => ?_, memWriteSeq_of_not_valid⟩⟩
  have ⟨_, _, hend⟩ := hv
  have hinside := peek_pokeBytes_inside s hw addr.toNat bs hend
  refine ⟨_, memWriteSeq_ok s ((accessOk_iff_valid s addr _).2 hv), ?_, hinside,
    peek_pokeBytes_outside s hw addr.toNat bs hend, rfl⟩
  obtain ⟨cs, hread, hlen, hcs⟩ := memReadSeq_of_valid (s := s.pokeBytes addr.toNat bs) hv
  have hsame : cs = bs := List.ext_getElem hlen fun j hc hb => (hcs j hc).trans (hinside j hb)
  exact hsame ▸ hread

end

/-! ### The ends of the window (R51, R68) -/

/-- R53 with `ACC_LOW = LOW` (D3). -/
theorem validAccess_iff_of_bound_low {s : State} (h : s.cfg.accBound = .low) (a len : Nat) :
    ValidAccess s a len ↔ s.cfg.low.addr ≤ a ∧ a < 0x1000 ∧ a + len ≤ 0x1000 := by
  simp only [ValidAccess, Config.accLow, h]

/-- Settles O27: with the bound at `LOW`, which of the addresses start a valid access of a byte, a word or a sequence. -/
theorem boundaryAddressesFaultOrNot : Obligations.BoundaryAddressesFaultOrNot := by
  intro s hbound
  have hvalid := validAccess_iff_of_bound_low hbound
  have hlow := low_addr_cases s.cfg.low
  refine ⟨fun addr len h => ?_, fun addr h b => ?_, ?_, fun addr h b => ?_, fun addr h => ?_⟩
  · have hv : ¬ ValidAccess s addr.toNat len := by
      rw [hvalid]
      omega
    exact ⟨memReadSeq_of_not_valid hv, fun bs hbs => memWriteSeq_of_not_valid (hbs ▸ hv)⟩
  · have hv (len : Nat) : ¬ ValidAccess s addr.toNat len := by
      rw [hvalid]
      omega
    exact ⟨memRead_of_not_valid (hv 1), memWrite_of_not_valid b (hv 1), fetchWord_of_not_valid (hv 2)⟩
  · have hv : ¬ ValidAccess s 0xFFF 2 := by
      rw [hvalid]
      omega
    exact fetchWord_of_not_valid hv
  · have hv : ValidAccess s addr.toNat 1 := by
      simp only [List.mem_cons, List.not_mem_nil, or_false] at h
      rw [hvalid]
      omega
    exact ⟨⟨_, memRead_of_valid hv⟩, _, memWrite_of_valid b hv⟩
  · have hv : ValidAccess s addr.toNat 2 := by
      simp only [List.mem_cons, List.not_mem_nil, or_false] at h
      rw [hvalid]
      omega
    exact ⟨_, fetchWord_of_valid hv⟩

/-! ### The host's loader and dump (R59, R60) -/

theorem loadProgram_of_fits {s : State} {image : List Byte} (h : s.cfg.low.addr + image.length ≤ 0x1000) :
    s.loadProgram image = .next (s.pokeBytes s.cfg.low.addr image) := if_pos h

theorem loadProgram_of_too_long {s : State} {image : List Byte} (h : 0x1000 < s.cfg.low.addr + image.length) :
    s.loadProgram image = .fault .imageOutOfRange := if_neg h.not_ge

theorem dumpImage_length (s : State) : s.dumpImage.length = 0x1000 := by
  rw [State.dumpImage, List.length_map, List.length_range]

theorem dumpImage_getElem? (s : State) {a : Nat} (h : a < 0x1000) : s.dumpImage[a]? = some (s.peek a) := by
  rw [State.dumpImage, List.getElem?_map, List.getElem?_range h, Option.map_some]

/-- Settles O29: loading is a write of consecutive bytes from `LOW`, behind the loader's own check. -/
theorem loaderAndDumpMoveTheImage : Obligations.LoaderAndDumpMoveTheImage :=
  fun s image hw => ⟨fun hfits => ⟨_, loadProgram_of_fits hfits, peek_pokeBytes_inside s hw _ image hfits,
      peek_pokeBytes_outside s hw _ image hfits, rfl, wf_pokeBytes s hw _ image hfits⟩,
    loadProgram_of_too_long, dumpImage_length s, fun _ => dumpImage_getElem? s⟩

end Sys2Proof.Machine
end

section
/-! The encoding (R80 to R87): every instruction's word matches its row and reads back its operands, the rows are told
apart by the bits two masks share, and what the dispatch key leaves over. -/

namespace Sys2Proof.Machine

/-! ### Encoding and decoding -/

section
variable {n1 : Nat} (h : n1 < 16)
include h

/-! Each format of R82 reads back the operands written into it. -/

theorem formatNNN_reads_back (c : Word → Instr) {a : Word} (ha : addrFits a = true) :
    c (fieldNNN (wordNNN n1 a)) = c a := by
  obtain ⟨-, haddr⟩ := fields_wordNNN h a ha
  rw [haddr]

theorem formatXKK_reads_back (c : RegIdx → Byte → Instr) (x : RegIdx) (kk : Byte) :
    c (fieldX (wordXKK n1 x kk)) (fieldKK (wordXKK n1 x kk)) = c x kk := by
  obtain ⟨-, hx, hkk⟩ := fields_wordXKK h x kk
  rw [hx, hkk]

theorem formatX_reads_back (c : RegIdx → Instr) (x : RegIdx) (kk : Byte) : c (fieldX (wordXKK n1 x kk)) = c x :=
  formatXKK_reads_back h (fun x _ => c x) x kk

theorem formatXYN_reads_back (c : RegIdx → RegIdx → Nat → Instr) (x y : RegIdx) {n : Nat} (hn : n < 16) :
    c (fieldX (wordXYN n1 x y n)) (fieldY (wordXYN n1 x y n)) (fieldN (wordXYN n1 x y n)).toNat = c x y n := by
  obtain ⟨-, hx, hy, hfield⟩ := fields_wordXYN h x y n
  rw [hx, hy, hfield, BitVec.toNat_ofNat, Nat.mod_eq_of_lt hn]

theorem formatXY_reads_back (c : RegIdx → RegIdx → Instr) (x y : RegIdx) {n : Nat} (hn : n < 16) :
    c (fieldX (wordXYN n1 x y n)) (fieldY (wordXYN n1 x y n)) = c x y :=
  formatXYN_reads_back h (fun x y _ => c x y) x y hn

end

theorem heightFits_iff (n : Nat) : heightFits n = true ↔ n < 16 := decide_eq_true_iff

section
open Laws.EncodesToItsRow

theorem encode_matches_row (i : Instr) : Statement i :=
  Instr.rec cls ret jp call seImm sneImm seReg ldImm addImm ldReg orReg andReg xorReg addReg sub shr subn shl sneReg ldI
    jpV0 rnd drw skp sknp ldVxDt ldVxK ldDtVx ldStVx addI ldF ldB ldMemVx ldVxMem i

/-- R85: an instruction's row, given the encoded word, builds the instruction again. -/
theorem row_build_encode {i : Instr} (h : i.wf = true) :
    ∃ row, opcodeMap[rowNumber i]? = some row ∧ row.build (encode i) = i := by
  cases i with
  | cls | ret => exact ⟨_, rfl, rfl⟩
  | jp _ | call _ | ldI _ | jpV0 _ => exact ⟨_, rfl, formatNNN_reads_back (by decide) _ h⟩
  | seImm x kk | sneImm x kk | ldImm x kk | addImm x kk | rnd x kk =>
    exact ⟨_, rfl, formatXKK_reads_back (by decide) _ x kk⟩
  | seReg x y | ldReg x y | orReg x y | andReg x y | xorReg x y | addReg x y | sub x y | shr x y | subn x y | shl x y
  | sneReg x y => exact ⟨_, rfl, formatXY_reads_back (by decide) _ x y (by decide)⟩
  | drw x y n => exact ⟨_, rfl, formatXYN_reads_back (by decide) _ x y ((heightFits_iff n).1 h)⟩
  | skp x | sknp x | ldVxDt x | ldVxK x | ldDtVx x | ldStVx x | addI x | ldF x | ldB x | ldMemVx x | ldVxMem x =>
    exact ⟨_, rfl, formatX_reads_back (by decide) _ x _⟩

theorem decode_encode {i : Instr} (h : i.wf = true) : decode (encode i) = .ok i := by
  obtain ⟨row, hrow, hmatch⟩ := encode_matches_row i
  obtain ⟨row', hrow', hbuild⟩ := row_build_encode h
  obtain rfl : row = row' := Option.some.inj (hrow.symm.trans hrow')
  rw [opcodeMap_decodes row (List.mem_of_getElem? hrow) _ hmatch, hbuild]

end

theorem decodeBytes_of_decode {m l : Byte} {i : Instr} (h : decode (fuse m l) = .ok i) (rest : List Byte) :
    decodeBytes (m :: l :: rest) = .ok (i, rest) := by
  simp only [decodeBytes, h]

/-- Settles O2: the bytes fuse to the encoded word, and the row that word matches gives its operands back. -/
theorem decodeOfEncodeIsTheInstruction : Obligations.DecodeOfEncodeIsTheInstruction := by
  refine fun i h => ⟨decode_encode h, decodeBytes_of_decode ?_⟩
  rw [fuse_split, decode_encode h]

/-! ### The rows of the map (R85) -/

/-- Two rows are disjoint when their patterns differ under the bits their masks share. -/
theorem disjoint_of_shared_bits {p q : OpcodeRow} (h : p.pattern &&& q.mask ≠ q.pattern &&& p.mask) (op : Word) :
    ¬ (op &&& p.mask = p.pattern ∧ op &&& q.mask = q.pattern) := by
  rintro ⟨hp, hq⟩
  rw [← hp, ← hq, BitVec.and_assoc, BitVec.and_assoc, BitVec.and_comm p.mask] at h
  exact h rfl

theorem opcodeMap_pairwise_differ :
    opcodeMap.Pairwise fun p q => p.pattern &&& q.mask ≠ q.pattern &&& p.mask := by
  decide

theorem decode_ok_iff {op : Word} {i : Instr} :
    decode op = .ok i ↔ ∃ row ∈ opcodeMap, op &&& row.mask = row.pattern ∧ row.build op = i := by
  refine ⟨decode_inv, ?_⟩
  rintro ⟨row, hrow, hmatch, rfl⟩
  exact opcodeMap_decodes row hrow op hmatch

/-- Settles O3: the 34 rows differ pairwise under the bits their masks share. -/
theorem opcodeMapSelectsTheInstruction : Obligations.OpcodeMapSelectsTheInstruction :=
  ⟨rfl, opcodeMap_pairwise_differ.imp disjoint_of_shared_bits, fun _ _ => decode_ok_iff, fun _ _ => decode_wf⟩

/-! ### Unrecognized words (R86) -/

section
variable {op : Word}

theorem decode_of_nibble0 (h : fieldN1 op = 0x0#4) : decode op = decodeClass0 op := by
  simp [decode, h]

theorem decode_of_nibble8 (h : fieldN1 op = 0x8#4) : decode op = decodeClass8 op := by
  simp [decode, h]

theorem decode_of_nibbleE (h : fieldN1 op = 0xE#4) : decode op = decodeClassE op := by
  simp [decode, h]

theorem decode_of_nibbleF (h : fieldN1 op = 0xF#4) : decode op = decodeClassF op := by
  simp [decode, h]

theorem decodeClass0_eq_error_iff :
    decodeClass0 op = .error (.unrecognizedOpcode op) ↔ fieldKK op ∉ [0xE0#8, 0xEE#8] := by
  simp [decodeClass0, ite_eq_iff]

/-- Of the sixteen keys of class 8 the table lists the seven that no row takes. -/
theorem mem_rejectedKeys8_iff (n : BitVec 4) : n ∈ [0x8#4, 0x9#4, 0xA#4, 0xB#4, 0xC#4, 0xD#4, 0xF#4] ↔
    n ∉ [0x0#4, 0x1#4, 0x2#4, 0x3#4, 0x4#4, 0x5#4, 0x6#4, 0x7#4, 0xE#4] := by
  revert n
  decide

theorem decodeClass8_eq_error_iff : decodeClass8 op = .error (.unrecognizedOpcode op) ↔
    fieldN op ∈ [0x8#4, 0x9#4, 0xA#4, 0xB#4, 0xC#4, 0xD#4, 0xF#4] := by
  rw [mem_rejectedKeys8_iff]
  simp [decodeClass8, ite_eq_iff]

theorem decodeClassE_eq_error_iff :
    decodeClassE op = .error (.unrecognizedOpcode op) ↔ fieldKK op ∉ [0x9E#8, 0xA1#8] := by
  simp [decodeClassE, ite_eq_iff]

theorem decodeClassF_eq_error_iff : decodeClassF op = .error (.unrecognizedOpcode op) ↔
    fieldKK op ∉ [0x07#8, 0x0A#8, 0x15#8, 0x18#8, 0x1E#8, 0x29#8, 0x33#8, 0x55#8, 0x65#8] := by
  simp [decodeClassF, ite_eq_iff]

/-- R84 class 1: any other high nibble selects an instruction alone. -/
theorem decode_of_nibbleOnly (h0 : fieldN1 op ≠ 0x0#4) (h8 : fieldN1 op ≠ 0x8#4) (hE : fieldN1 op ≠ 0xE#4)
    (hF : fieldN1 op ≠ 0xF#4) : ∃ i, decode op = .ok i := by
  unfold decode
  split
  case h_1 e => exact absurd (BitVec.eq_of_toNat_eq e) h0
  case h_9 e => exact absurd (BitVec.eq_of_toNat_eq e) h8
  case h_15 e => exact absurd (BitVec.eq_of_toNat_eq e) hE
  case h_16 =>
    have hlt := (fieldN1 op).isLt
    have hne : (fieldN1 op).toNat ≠ 15 := fun e => hF (BitVec.eq_of_toNat_eq e)
    simp only [imp_false] at *
    omega
  all_goals exact ⟨_, rfl⟩

end

/-- Settles O4, by the high nibble: in each of the four classes that look at more than it, the failing keys are those of
the table. -/
theorem unrecognizedWordsAreExactlyTheTable : Obligations.UnrecognizedWordsAreExactlyTheTable := by
  intro op
  by_cases h0 : fieldN1 op = 0x0#4
  · rw [decode_of_nibble0 h0, decodeClass0_eq_error_iff]
    simp [h0]
  by_cases h8 : fieldN1 op = 0x8#4
  · rw [decode_of_nibble8 h8, decodeClass8_eq_error_iff]
    simp [h8]
  by_cases hE : fieldN1 op = 0xE#4
  · rw [decode_of_nibbleE hE, decodeClassE_eq_error_iff]
    simp [hE]
  by_cases hF : fieldN1 op = 0xF#4
  · rw [decode_of_nibbleF hF, decodeClassF_eq_error_iff]
    simp [hF]
  obtain ⟨i, hi⟩ := decode_of_nibbleOnly h0 h8 hE hF
  simp [hi, h0, h8, hE, hF]

/-! ### Ignored bits (R87) -/

/-- Words that agree under a mask agree in every field the mask covers. -/
theorem extract_eq_of_agree {op op' mask : Word} (h : op &&& mask = op' &&& mask) (lo len : Nat)
    (hm : mask.extractLsb' lo len = BitVec.allOnes len) : op.extractLsb' lo len = op'.extractLsb' lo len :=
  (extract_of_mask h lo len hm).trans (extract_of_mask rfl lo len hm).symm

/-- R87 (b): a row of class 1 that reads `x` and `y` alone decodes alike two words that agree above the low nibble. -/
theorem decode_eq_of_low_nibble {pattern : Word} {c : RegIdx → RegIdx → Instr} (hp : pattern &&& 0xF000 = pattern)
    (hrow : DecodesTo 0xF000 pattern fun op => c (fieldX op) (fieldY op)) {op op' : Word}
    (hop : op &&& 0xF000 = pattern) (h : op &&& 0xFFF0 = op' &&& 0xFFF0) : decode op = decode op' := by
  have hn : fieldN1 op = fieldN1 op' := extract_eq_of_agree h 12 4 (by decide)
  have hx : fieldX op = fieldX op' := congrArg BitVec.toFin (extract_eq_of_agree h 8 4 (by decide))
  have hy : fieldY op = fieldY op' := congrArg BitVec.toFin (extract_eq_of_agree h 4 4 (by decide))
  have hop' : op' &&& 0xF000 = pattern := (and_F000_iff op' hp).2 (hn ▸ (and_F000_iff op hp).1 hop)
  rw [hrow op hop, hrow op' hop']
  exact congrArg Except.ok (congrArg₂ c hx hy)

/-- Settles O5: rows 1, 2, 7 and 19 of the map, and the two shifts, which take `y` and do not use it. -/
theorem ignoredBitsDoNotMatter : Obligations.IgnoredBitsDoNotMatter := by
  refine ⟨decodesTo_row 0 rfl, decodesTo_row 1 rfl, ?_, fun _ _ _ _ => rfl, fun _ _ _ _ => rfl⟩
  rintro op op' (h5 | h9) h
  · exact decode_eq_of_low_nibble (by decide) (c := .seReg) (decodesTo_row 6 rfl) h5 h
  · exact decode_eq_of_low_nibble (by decide) (c := .sneReg) (decodesTo_row 18 rfl) h9 h

/-! ### Words written out bit by bit -/

theorem decode_zero : decode 0x0000 = .error (.unrecognizedOpcode 0x0000) :=
  (unrecognizedWordsAreExactlyTheTable 0x0000).2 (by decide)

/-- Settles O1: the ten words are the encodings of their instructions, and `0x0000` is in the table of R86. -/
theorem sampleWordsDecodeAsTheMapSays : Obligations.SampleWordsDecodeAsTheMapSays :=
  ⟨decode_encode (i := .cls) rfl, decode_encode (i := .ret) rfl, decode_encode (i := .jp 0x234) rfl,
    decode_encode (i := .seImm 0xA 0x5C) rfl, decode_encode (i := .subn 0x1 0x2) rfl,
    decode_encode (i := .ldI 0xDEF) rfl, decode_encode (i := .drw 0x1 0x2 15) rfl,
    decode_encode (i := .sknp 0x5) rfl, decode_encode (i := .ldStVx 0x4) rfl,
    decode_encode (i := .ldVxMem 0xB) rfl, decode_zero⟩

end Sys2Proof.Machine
end

section
/-! Control transfer (R100 to R108): jumps and skips are updates of `PC` alone; a call and a return are the stack's `Push` and
`Pop` (R26) followed by a jump, or the fault of a full or an empty stack. -/

namespace Sys2Proof.Machine

variable {s : State} {i : Instr} {target : State → Nat}

/-! ### Jumps and skips -/

theorem setsPc_of_exec_jumpTo (w : State → Word) (h : ∀ s, exec i s = .next (s.jumpTo (w s)))
    (hw : ∀ s, (w s).toNat = target s) : SetsPc i target :=
  fun s => ⟨_, h s, hw s, rfl, fun _ => rfl⟩

/-- R100: a skip is a jump to the next instruction or past it. -/
theorem setsPc_of_exec_skipIf (c : State → Bool) (h : ∀ s, exec i s = .next (s.skipIf (c s)))
    (hc : ∀ s, (if c s then (s.pc.toNat + 2) % 65536 else s.pc.toNat) = target s) : SetsPc i target := by
  refine setsPc_of_exec_jumpTo (fun s => if c s then pcPlusTwo s.pc else s.pc) h fun s => ?_
  rw [apply_ite BitVec.toNat, pcPlusTwo_toNat, hc]

/-- Settles O33: rows 3 and 21 of the map; the operand is the target as it stands, or with `V0` added modulo 65536. -/
theorem jumpsSetPc : Obligations.JumpsSetPc :=
  ⟨decodesTo_row 2 rfl, decodesTo_row 20 rfl, fieldNNN_toNat,
    fun addr => setsPc_of_exec_jumpTo (fun _ => addr) (fun _ => rfl) fun _ => rfl,
    fun addr => setsPc_of_exec_jumpTo (fun s => addByteToWord addr (s.getV 0)) (fun _ => rfl)
      fun s => addByteToWord_toNat addr (s.getV 0)⟩

/-- Settles O34: rows 5, 6, 7 and 19 of the map; two skip on a condition, two on its negation. -/
theorem skipsAddTwoWhenTheConditionHolds : Obligations.SkipsAddTwoWhenTheConditionHolds := by
  refine ⟨decodesTo_row 4 rfl, decodesTo_row 5 rfl, decodesTo_row 6 rfl, decodesTo_row 18 rfl,
    fun x kk => ⟨?_, ?_⟩, fun x y => ⟨?_, ?_⟩⟩
  · exact setsPc_of_exec_skipIf (fun s => s.getV x == kk) (fun _ => rfl) fun s => by simp
  · exact setsPc_of_exec_skipIf (fun s => s.getV x != kk) (fun _ => rfl) fun s => by simp
  · exact setsPc_of_exec_skipIf (fun s => s.getV x == s.getV y) (fun _ => rfl) fun s => by simp
  · exact setsPc_of_exec_skipIf (fun s => s.getV x != s.getV y) (fun _ => rfl) fun s => by simp

/-! ### Call and return -/

theorem takesFault_ret_of_empty (h : s.sp.val = 0) : TakesFault .ret s .stackUnderflow 0 := by
  simp only [TakesFault, exec, execRet, pop_error s h.not_gt]
  rfl

theorem takesFault_call_of_full (addr : Word) (h : s.sp.val = 16) : TakesFault (.call addr) s .stackOverflow 0 := by
  simp only [TakesFault, exec, execCall, push_error s h.not_lt]
  rfl

/-- R26: the pushed word becomes the top of the live entries. -/
theorem liveStack_of_push {t : State} (w : Word) (hlt : s.sp.val < 16) (hstack : t.stack = s.stack.set s.sp.val w)
    (hsp : t.sp.val = s.sp.val + 1) : t.liveStack = w :: s.liveStack := by
  have htake : (s.stack.toList.set s.sp.val w).take (s.sp.val + 1) = s.stack.toList.take s.sp.val ++ [w] := by
    rw [List.take_succ_eq_append_getElem (by simpa using hlt), List.take_set_of_le le_rfl, List.getElem_set_self]
  rw [State.liveStack, hstack, hsp, Vector.toList_set, htake, List.reverse_concat, State.liveStack]

/-- Settles O30: row 2 of the map; the guard of `Pop` decides between the return and the fault. -/
theorem retPopsAndJumps : Obligations.RetPopsAndJumps :=
  ⟨decodesTo_row 1 rfl, fun _ =>
    ⟨fun h => ⟨_, exec_ret_of_pos h, rfl, rfl, rfl, fun _ => rfl⟩, takesFault_ret_of_empty⟩⟩

/-- Settles O31: row 4 of the map; the guard of `Push` decides between the call and the fault. -/
theorem callPushesAndJumps : Obligations.CallPushesAndJumps :=
  ⟨decodesTo_row 3 rfl, fun addr s =>
    ⟨fun h => ⟨_, exec_call_of_lt addr h, rfl, rfl, liveStack_of_push s.pc h rfl rfl, rfl, fun _ => rfl⟩,
      takesFault_call_of_full addr⟩⟩

end Sys2Proof.Machine
end

section
/-! Loads, arithmetic, logic, random (R119 to R132): each instruction is one register write, or the write of a result
and then of the flag; what the flag's definitions say of the operands; the random byte, which `Cxkk` alone reads. -/

namespace Sys2Proof.Machine

/-! ### Bytes and flags as numbers -/

/-- R127, R129: 256 is added on a borrow. -/
theorem byte_sub_toNat (a b : Byte) :
    (a - b).toNat = if a.toNat ≥ b.toNat then a.toNat - b.toNat else a.toNat + 256 - b.toNat := by
  have ha := a.isLt
  have hb := b.isLt
  rw [BitVec.toNat_sub]
  split <;> omega

theorem byte_shiftRight_one_toNat (a : Byte) : (a >>> 1).toNat = a.toNat / 2 := by
  rw [BitVec.toNat_ushiftRight, Nat.shiftRight_one]

theorem byte_shiftLeft_one_toNat (a : Byte) : (a <<< 1).toNat = a.toNat * 2 % 256 := by
  rw [BitVec.toNat_shiftLeft, Nat.shiftLeft_eq, Nat.pow_one]

theorem carryOut_iff (a b : Byte) : carryOut a b = true ↔ 255 < a.toNat + b.toNat := decide_eq_true_iff

theorem notBorrow_iff (a b : Byte) : notBorrow a b = true ↔ a.toNat ≥ b.toNat := decide_eq_true_iff

/-! ### Writes of one register -/

/-- Settles O35: rows 8 to 13 of the map; each instruction is one `setV`, of the byte whose number the rule gives. -/
theorem loadsAndLogicWriteOneRegister : Obligations.LoadsAndLogicWriteOneRegister := by
  refine ⟨decodesTo_row 7 rfl, decodesTo_row 8 rfl, decodesTo_row 9 rfl, decodesTo_row 10 rfl, decodesTo_row 11 rfl,
    decodesTo_row 12 rfl, fun x kk => ⟨?_, ?_⟩, fun x y => ⟨?_, ?_, ?_, ?_⟩⟩
  · exact writesReg_of_exec (fun _ => kk) (fun _ => rfl) fun _ => rfl
  · exact writesReg_of_exec (fun s => s.getV x + kk) (fun _ => rfl) fun _ => BitVec.toNat_add _ _
  · exact writesReg_of_exec (fun s => s.getV y) (fun _ => rfl) fun _ => rfl
  · exact writesReg_of_exec (fun s => s.getV x ||| s.getV y) (fun _ => rfl) fun _ => BitVec.toNat_or _ _
  · exact writesReg_of_exec (fun s => s.getV x &&& s.getV y) (fun _ => rfl) fun _ => BitVec.toNat_and _ _
  · exact writesReg_of_exec (fun s => s.getV x ^^^ s.getV y) (fun _ => rfl) fun _ => BitVec.toNat_xor _ _

/-- Settles O40: row 22 of the map; a bit of the mask that is 0 clears the bit of the byte drawn. -/
theorem rndMasksTheRandomByte : Obligations.RndMasksTheRandomByte := by
  refine ⟨decodesTo_row 21 rfl, fun x kk => ⟨?_, fun s t j h hj => ?_⟩⟩
  · exact writesReg_of_exec (fun s => s.randomByte &&& kk) (fun _ => rfl) fun _ => BitVec.toNat_and _ _
  · obtain rfl : s.setV x (s.randomByte &&& kk) = t := Host.Outcome.next.inj h
    rw [State.getV_setV, if_pos rfl, BitVec.getLsbD_and, hj, Bool.and_false]

/-! ### Writes of a result and the flag (R132) -/

/-- Settles O36: row 14 of the map; the flag is the carry out of the old values. -/
theorem addSetsTheCarryFlag : Obligations.AddSetsTheCarryFlag :=
  ⟨decodesTo_row 13 rfl, fun x y =>
    writesRegAndFlag_of_exec (fun s => s.getV x + s.getV y) (fun s => carryOut (s.getV x) (s.getV y)) (fun _ => rfl)
      (fun _ => BitVec.toNat_add _ _) fun _ => carryOut_iff _ _⟩

/-- Settles O37: rows 15 and 17 of the map, with minuend and subtrahend exchanged. -/
theorem subtractionsSetTheNotBorrowFlag : Obligations.SubtractionsSetTheNotBorrowFlag := by
  refine ⟨decodesTo_row 14 rfl, decodesTo_row 16 rfl, fun x y => ⟨?_, ?_⟩⟩
  · exact writesRegAndFlag_of_exec (fun s => s.getV x - s.getV y) (fun s => notBorrow (s.getV x) (s.getV y))
      (fun _ => rfl) (fun _ => byte_sub_toNat _ _) fun _ => notBorrow_iff _ _
  · exact writesRegAndFlag_of_exec (fun s => s.getV y - s.getV x) (fun s => notBorrow (s.getV y) (s.getV x))
      (fun _ => rfl) (fun _ => byte_sub_toNat _ _) fun _ => notBorrow_iff _ _

/-- Settles O38: rows 16 and 18 of the map; result and flag are of `V[x]` alone. -/
theorem shiftsSetTheLostBitFlag : Obligations.ShiftsSetTheLostBitFlag := by
  refine ⟨decodesTo_row 15 rfl, decodesTo_row 17 rfl, fun x y => ⟨?_, ?_⟩⟩
  · exact writesRegAndFlag_of_exec (fun s => s.getV x >>> 1) (fun s => lostRight (s.getV x)) (fun _ => rfl)
      (fun _ => byte_shiftRight_one_toNat _) fun _ => lostRight_iff _
  · exact writesRegAndFlag_of_exec (fun s => s.getV x <<< 1) (fun s => lostLeft (s.getV x)) (fun _ => rfl)
      (fun _ => byte_shiftLeft_one_toNat _) fun _ => lostLeft_iff _

section
variable {i : Instr} {x : RegIdx} {value : State → Nat} {flag : State → Prop} {s t : State}

theorem WritesRegAndFlag.flag_toNat [Decidable (flag s)] (hw : WritesRegAndFlag i x value flag)
    (h : exec i s = .next t) : (t.getV flagReg).toNat = if flag s then 1 else 0 := by
  obtain ⟨u, hu, -, hset, hclear, -⟩ := hw s
  obtain rfl := Host.Outcome.next.inj (hu.symm.trans h)
  split
  case isTrue hf => exact congrArg BitVec.toNat (hset hf)
  case isFalse hf => exact congrArg BitVec.toNat (hclear hf)

theorem WritesRegAndFlag.result_toNat (hw : WritesRegAndFlag i x value flag) (hx : x ≠ flagReg)
    (h : exec i s = .next t) : (t.getV x).toNat = value s := by
  obtain ⟨u, hu, hresult, -⟩ := hw s
  obtain rfl := Host.Outcome.next.inj (hu.symm.trans h)
  exact hresult hx

end

/-- Settles O39, from the effects of the five instructions: they name the flag of the old values for every `x`, and the
result for every `x` but `F`, whatever `y` is. -/
theorem flagIsWrittenAfterTheResult : Obligations.FlagIsWrittenAfterTheResult := by
  intro y s t
  obtain ⟨-, hadd⟩ := addSetsTheCarryFlag
  obtain ⟨-, -, hsubs⟩ := subtractionsSetTheNotBorrowFlag
  obtain ⟨-, -, hshifts⟩ := shiftsSetTheLostBitFlag
  obtain ⟨hsubF, hsubnF⟩ := hsubs flagReg y
  obtain ⟨hshrF, hshlF⟩ := hshifts flagReg y
  obtain ⟨hsub, hsubn⟩ := hsubs y flagReg
  have hy := (s.getV y).isLt
  have hF := (s.getV flagReg).isLt
  refine ⟨fun h => ?_, hsubF.flag_toNat, hsubnF.flag_toNat, fun h => ?_, fun h => ?_, fun hne h => ?_,
    fun hne h => ?_, fun hne h => ?_⟩
  · rw [(hadd flagReg y).flag_toNat h]
    split <;> omega
  · rw [hshrF.flag_toNat h]
    split <;> omega
  · rw [hshlF.flag_toNat h]
    split <;> omega
  · rw [(hadd y flagReg).result_toNat hne h, (hadd y flagReg).flag_toNat h]
    split <;> omega
  · rw [hsub.result_toNat hne h, hsub.flag_toNat h]
    split <;> omega
  · rw [hsubn.result_toNat hne h, hsubn.flag_toNat h]
    split <;> omega

/-! ### The random byte -/

/-- A state with another byte on the random port. -/
def State.withRandomByte (s : State) (b : Byte) : State :=
  { s with env := { s.env with inputs := { s.env.inputs with rnd := b } } }

section
variable (s : State) (b : Byte)

theorem memReadSeq_withRandomByte (addr : Word) (len : Nat) :
    (s.withRandomByte b).memReadSeq addr len = s.memReadSeq addr len := rfl

theorem withRandomByte_i : (s.withRandomByte b).i = s.i := rfl

theorem loadRegs_withRandomByte (j : Nat) (bs : List Byte) :
    (s.withRandomByte b).loadRegs j bs = (s.loadRegs j bs).withRandomByte b := by
  induction bs generalizing s j with
  | nil => rfl
  | cons c bs ih => exact ih (s.setV (Fin.ofNat 16 j) c) (j + 1)

theorem orRaise_withRandomByte {r r' : Except FaultRecord State} (hr : r' = r.map (State.withRandomByte · b)) :
    ∃ t, s.orRaise r = .next t ∧ (s.withRandomByte b).orRaise r' = .next (t.withRandomByte b) := by
  subst hr
  cases r <;> exact ⟨_, rfl, rfl⟩

theorem orRaise_ite_withRandomByte {c : Prop} [Decidable c] {u : State} {f : FaultRecord} :
    ∃ t, s.orRaise (if c then .ok u else .error f) = .next t ∧
      (s.withRandomByte b).orRaise (if c then .ok (u.withRandomByte b) else .error f) = .next (t.withRandomByte b) := by
  split <;> exact ⟨_, rfl, rfl⟩

/-- R131: an instruction other than `Cxkk` carries another random byte through unread: its guard does not see the byte,
and on either side of the guard the update leaves it alone. -/
theorem exec_withRandomByte {i : Instr} (hi : ∀ x kk, i ≠ .rnd x kk) :
    ∃ t, exec i s = .next t ∧ exec i (s.withRandomByte b) = .next (t.withRandomByte b) := by
  cases i with
  | rnd x kk => exact absurd rfl (hi x kk)
  | ret =>
    obtain hempty | hpos := Nat.eq_zero_or_pos s.sp.val
    · exact ⟨_, takesFault_ret_of_empty hempty, takesFault_ret_of_empty (s := s.withRandomByte b) hempty⟩
    · exact ⟨_, exec_ret_of_pos hpos, exec_ret_of_pos (s := s.withRandomByte b) hpos⟩
  | call addr =>
    obtain hlt | hfull := Nat.lt_or_eq_of_le (Nat.le_of_lt_succ s.sp.isLt)
    · exact ⟨_, exec_call_of_lt addr hlt, exec_call_of_lt addr (s := s.withRandomByte b) hlt⟩
    · exact ⟨_, takesFault_call_of_full addr hfull, takesFault_call_of_full addr (s := s.withRandomByte b) hfull⟩
  | skp _ | sknp _ | ldF _ | ldB _ | ldMemVx _ =>
    exact orRaise_ite_withRandomByte s b
  | drw _ _ n =>
    refine orRaise_withRandomByte s b ?_
    rw [memReadSeq_withRandomByte, withRandomByte_i]
    cases s.memReadSeq s.i n <;> rfl
  | ldVxMem x =>
    refine orRaise_withRandomByte s b ?_
    rw [memReadSeq_withRandomByte, withRandomByte_i]
    cases s.memReadSeq s.i (x.val + 1) with
    | ok bs => exact congrArg Except.ok (loadRegs_withRandomByte s b 0 bs)
    | error _ => rfl
  | _ => exact ⟨_, rfl, rfl⟩

end

/-- Settles O22: the environment of the answer is that of the start (R36), so only the byte differs. -/
theorem randomByteReachesOnlyRnd : Obligations.RandomByteReachesOnlyRnd := by
  intro i s t b hi h
  obtain ⟨-, -, -, henv, -⟩ := onlyTheListedInstructionsWrite i s t h
  obtain ⟨u, hu, hrun⟩ := exec_withRandomByte s b hi
  obtain rfl := Host.Outcome.next.inj (hu.symm.trans h)
  unfold State.withRandomByte at hrun
  rwa [henv] at hrun

end Sys2Proof.Machine
end

section
/-! The index register and memory (R140 to R145): two writers of `I`, the font address behind its digit check, the stores
as one checked write of consecutive bytes at `I`, and the load as one checked read into the low registers. -/

namespace Sys2Proof.Machine

variable {s : State} {i : Instr}

/-! ### Writers of `I` -/

theorem setsI_of_exec {value : State → Nat} (w : State → Word) (h : ∀ s, exec i s = .next (s.setI (w s)))
    (hw : ∀ s, (w s).toNat = value s) : SetsI i value :=
  fun s => ⟨_, h s, hw s, rfl, fun _ => rfl⟩

/-- Settles O41: rows 20 and 30 of the map; `I` receives the operand as it stands, or the sum modulo 65536. -/
theorem indexLoadsAndAdds : Obligations.IndexLoadsAndAdds :=
  ⟨decodesTo_row 19 rfl, decodesTo_row 29 rfl, fieldNNN_toNat,
    fun addr => setsI_of_exec (fun _ => addr) (fun _ => rfl) fun _ => rfl,
    fun x => setsI_of_exec (fun s => addByteToWord s.i (s.getV x)) (fun _ => rfl)
      fun s => addByteToWord_toNat s.i (s.getV x)⟩

theorem isNibble_iff (b : Byte) : isNibble b = true ↔ b.toNat ≤ 0xF := decide_eq_true_iff

theorem exec_ldF_of_digit {x : RegIdx} (h : (s.getV x).toNat ≤ 0xF) :
    exec (.ldF x) s = .next (s.setI (fontAddress (s.getV x))) := by
  rw [exec, execLdF, if_pos ((isNibble_iff _).2 h), orRaise_ok]

theorem takesFault_ldF_of_not_digit {x : RegIdx} (h : 0xF < (s.getV x).toNat) :
    TakesFault (.ldF x) s .invalidSpriteDigit (BitVec.ofNat 16 (s.getV x).toNat) := by
  rw [TakesFault, exec, execLdF, if_neg (h.not_ge ∘ (isNibble_iff _).1), orRaise_error, zext16_eq]
  rfl

/-- Settles O42: row 31 of the map; the digit check decides between the address and the fault. -/
theorem fontAddressOrInvalidDigit : Obligations.FontAddressOrInvalidDigit :=
  ⟨decodesTo_row 30 rfl, fun _ _ =>
    ⟨fun h => ⟨_, exec_ldF_of_digit h, fontAddress_toNat h, rfl, fun _ => rfl⟩, takesFault_ldF_of_not_digit⟩⟩

/-! ### Stores of consecutive bytes at `I` (R58) -/

section
variable {bs : List Byte} (hexec : exec i s = s.orRaise (s.memWriteSeq s.i bs))
include hexec

/-- What `Fx33` and `Fx55` share: the bytes lie at `I`, and every other byte and the rest of the state are as before. -/
theorem stores_of_exec_memWriteSeq (hw : s.memOk) (hv : ValidAccess s s.i.toNat bs.length) :
    ∃ t, exec i s = .next t ∧ (∀ j, (hj : j < bs.length) → t.peek (s.i.toNat + j) = bs[j]) ∧
      (∀ a, (a < s.i.toNat ∨ s.i.toNat + bs.length ≤ a) → t.peek a = s.peek a) ∧ t = { s with mem := t.mem } := by
  have ⟨_, _, hend⟩ := hv
  rw [hexec, memWriteSeq_ok s ((accessOk_iff_valid s s.i _).2 hv), orRaise_ok]
  exact ⟨_, rfl, peek_pokeBytes_inside s hw _ bs hend, peek_pokeBytes_outside s hw _ bs hend, rfl⟩

/-- D10: the range is checked before any byte moves. -/
theorem takesFault_of_exec_memWriteSeq (hv : ¬ ValidAccess s s.i.toNat bs.length) :
    TakesFault i s .outOfRange s.i := by
  rw [TakesFault, hexec, memWriteSeq_of_not_valid hv, orRaise_error]
  rfl

end

/-- R143: the digits of a byte, each of which fits a byte. -/
theorem bcdDigits_eq (b : Byte) : ∃ hundreds tens ones : Byte, bcdDigits b = [hundreds, tens, ones] ∧
    hundreds.toNat = b.toNat / 100 ∧ tens.toNat = b.toNat / 10 % 10 ∧ ones.toNat = b.toNat % 10 := by
  have hb := b.isLt
  refine ⟨_, _, _, rfl, ?_, ?_, ?_⟩ <;> rw [BitVec.toNat_ofNat] <;> omega

/-- Settles O43: row 32 of the map; the three bytes stored are the digits. -/
theorem bcdStoresThreeDigits : Obligations.BcdStoresThreeDigits := by
  refine ⟨decodesTo_row 31 rfl, fun x s hw => ?_⟩
  obtain ⟨hundreds, tens, ones, hdigits, hhundreds, htens, hones⟩ := bcdDigits_eq (s.getV x)
  have hstore : exec (.ldB x) s = s.orRaise (s.memWriteSeq s.i [hundreds, tens, ones]) := by
    rw [exec, execLdB, hdigits]
  refine ⟨fun hv => ?_, takesFault_of_exec_memWriteSeq hstore⟩
  obtain ⟨t, hexec, hin, hout, hframe⟩ := stores_of_exec_memWriteSeq hstore hw hv
  refine ⟨t, hexec, ?_, ?_, ?_, hout, hframe⟩
  · exact (congrArg BitVec.toNat (hin 0 (by simp))).trans hhundreds
  · exact (congrArg BitVec.toNat (hin 1 (by simp))).trans htens
  · exact (congrArg BitVec.toNat (hin 2 (by simp))).trans hones

/-- Settles O44: row 33 of the map; byte `r` of the block stored is `V[r]`. -/
theorem storeRegistersWritesTheBlock : Obligations.StoreRegistersWritesTheBlock := by
  refine ⟨decodesTo_row 32 rfl, fun x s hw => ?_⟩
  have hlen := lowRegs_length s x
  have hstore : exec (.ldMemVx x) s = s.orRaise (s.memWriteSeq s.i (s.lowRegs x)) := rfl
  refine ⟨fun hv => ?_, fun hv => takesFault_of_exec_memWriteSeq hstore (hlen ▸ hv)⟩
  obtain ⟨t, hexec, hin, hout, hframe⟩ := stores_of_exec_memWriteSeq hstore hw (hlen ▸ hv)
  refine ⟨t, hexec, fun r hr => ?_, fun a ha => hout a (by omega), hframe⟩
  rw [hin r.val (hlen ▸ Nat.lt_succ_of_le hr), lowRegs_getElem, Fin.ofNat_val_eq_self]

/-! ### The load from consecutive bytes at `I` (R57) -/

section
variable {x : RegIdx}

theorem exec_ldVxMem_of_valid (hv : ValidAccess s s.i.toNat (x.val + 1)) :
    ∃ bs, exec (.ldVxMem x) s = .next (s.loadRegs 0 bs) ∧ bs.length = x.val + 1 ∧
      ∀ j, (hj : j < bs.length) → bs[j] = s.peek (s.i.toNat + j) := by
  obtain ⟨bs, hread, hlen, hbytes⟩ := memReadSeq_of_valid hv
  refine ⟨bs, ?_, hlen, hbytes⟩
  rw [exec, execLdVxMem, hread, orRaise_ok]

theorem takesFault_ldVxMem_of_not_valid (hv : ¬ ValidAccess s s.i.toNat (x.val + 1)) :
    TakesFault (.ldVxMem x) s .outOfRange s.i := by
  rw [TakesFault, exec, execLdVxMem, memReadSeq_of_not_valid hv, orRaise_error]
  rfl

theorem getV_loadRegs_of_le {bs : List Byte} (hlen : bs.length = x.val + 1) {r : RegIdx} (hr : r ≤ x) :
    (s.loadRegs 0 bs).getV r = bs[r.val]'(hlen ▸ Nat.lt_succ_of_le hr) := by
  have hin : r.val < bs.length := hlen ▸ Nat.lt_succ_of_le hr
  rw [getV_loadRegs s 0 bs (by omega), dif_pos ⟨Nat.zero_le _, by omega⟩]
  rfl

theorem getV_loadRegs_of_lt {bs : List Byte} (hlen : bs.length = x.val + 1) {r : RegIdx} (hr : x < r) :
    (s.loadRegs 0 bs).getV r = s.getV r := by
  by_contra hne
  exact hr.not_ge (le_of_getV_loadRegs_ne hlen hne)

theorem sameMemory_loadRegs (j : Nat) (bs : List Byte) : SameMemory s (s.loadRegs j bs) := by
  rw [loadRegs_eq]
  exact fun _ => rfl

end

/-- Settles O45: row 34 of the map; the block read is loaded from `V0` on and writes `V` only. -/
theorem loadRegistersReadsTheBlock : Obligations.LoadRegistersReadsTheBlock := by
  refine ⟨decodesTo_row 33 rfl, fun x s => ⟨fun hv => ?_, takesFault_ldVxMem_of_not_valid⟩⟩
  obtain ⟨bs, hexec, hlen, hbytes⟩ := exec_ldVxMem_of_valid hv
  exact ⟨_, hexec, fun r hr => (getV_loadRegs_of_le hlen hr).trans (hbytes _ _),
    fun r => getV_loadRegs_of_lt hlen, loadRegs_eq s 0 bs, sameMemory_loadRegs 0 bs⟩

/-- Settles O46, from the effects of the store and of the load: the store leaves `I` and the window as they were (D11), so
the load reads back the bytes stored. -/
theorem storeThenLoadRestoresRegisters : Obligations.StoreThenLoadRestoresRegisters := by
  intro k s v hw hv
  obtain ⟨-, hstore⟩ := storeRegistersWritesTheBlock
  obtain ⟨-, hload⟩ := loadRegistersReadsTheBlock
  obtain ⟨t, hexec, hstored, -, hframe⟩ := (hstore k s hw).1 hv
  have hi : t.i = s.i := by rw [hframe]
  have hcfg : t.cfg = s.cfg := by rw [hframe]
  have hvt : ValidAccess { t with v := v } t.i.toNat (k.val + 1) := by
    simpa only [ValidAccess, hi, hcfg] using hv
  obtain ⟨u, hexec', hloaded, habove, -⟩ := (hload k { t with v := v }).1 hvt
  refine ⟨t, u, hexec, hexec', fun r hr => ?_, habove⟩
  calc u.getV r = t.peek (t.i.toNat + r.val) := hloaded r hr
    _ = t.peek (s.i.toNat + r.val) := by rw [hi]
    _ = s.getV r := hstored r hr

end Sys2Proof.Machine
end

section
/-! Display and keys (R160 to R168): the port's two calls, a draw as one `DisplayUpdate` whose overlay is the sprite's
pixels, the key skips behind their check of the operand, and the wait for a key as a run of samples. -/

namespace Sys2Proof.Machine

variable {s : State}

/-! ### The display port (R163, R164) -/

/-- Settles O48: row 1 of the map; the display cleared is 256 zeros. -/
theorem clearBlanksTheScreen : Obligations.ClearBlanksTheScreen :=
  ⟨decodesTo_row 0 rfl, fun _ => ⟨_, rfl, fun j => Vector.getElem_replicate j.isLt, rfl, fun _ => rfl⟩⟩

/-- R163: a byte loses a set pixel iff it shares one with the overlay. -/
theorem and_xor_ne_iff (old o : Byte) : old &&& (old ^^^ o) ≠ old ↔ old &&& o ≠ 0 :=
  bne_iff_ne.symm.trans (pixelTurnedOff_iff old o)

/-- Settles O49: the display and the reply byte by byte, the reply in both of its forms. -/
theorem displayUpdateXorsAndReportsCollision : Obligations.DisplayUpdateXorsAndReportsCollision := by
  intro s ov
  refine ⟨fun j => composited_getElem s.fb ov j.val j.isLt, ?_, collides_iff s.fb ov, rfl⟩
  simp only [and_xor_ne_iff]
  exact collides_iff s.fb ov

/-- R163: the reply, read off the display before and after. -/
theorem collides_iff_pixel_turnedOff (fb ov : Vector Byte 256) : collides fb ov = true ↔
    ∃ col row, pixel fb col row = true ∧ pixel (composited fb ov) col row = false := by
  rw [collides_iff_pixel]
  refine exists_congr fun col => exists_congr fun row => and_congr_right fun hold => ?_
  rw [pixel_composited, hold, Bool.true_xor, Bool.not_eq_false']

/-! ### The draw (R161, R162) -/

section
variable {x y : RegIdx} {n : Nat}

/-- R162: the overlay of the bytes at `I` has the pixels the sprite covers. -/
theorem pixel_overlay_iff_spriteCovers {spr : List Byte} (hn : n < 16) (hlen : spr.length = n)
    (hspr : ∀ r, (hr : r < spr.length) → spr[r] = s.peek (s.i.toNat + r)) (col : Fin 64) (row : Fin 32) :
    pixel (overlay (spriteColumn (s.getV x)) (spriteRow (s.getV y)) spr) col row = true ↔
      SpriteCovers s x y n col row := by
  rw [pixel_overlay _ _ _ (by omega)]
  refine exists_congr fun r => exists_congr fun j => ⟨?_, ?_⟩
  · rintro ⟨hr, hj, hrow, hcol, hbit⟩
    exact ⟨hlen ▸ hr, hj, hrow, hcol, hspr r hr ▸ hbit⟩
  · rintro ⟨hr, hj, hrow, hcol, hbit⟩
    have hr' : r < spr.length := hlen ▸ hr
    exact ⟨hr', hj, hrow, hcol, (hspr r hr').symm ▸ hbit⟩

/-- R161: a draw from valid bytes is one `DisplayUpdate`, its reply written to `VF`. -/
theorem exec_drw_of_valid (x y : RegIdx) (hn : n < 16) (hv : ValidAccess s s.i.toNat n) :
    ∃ ov, exec (.drw x y n) s = .next ((s.displayUpdate ov).1.setFlag (collides s.fb ov)) ∧
      ∀ col row, pixel ov col row = true ↔ SpriteCovers s x y n col row := by
  obtain ⟨spr, hread, hlen, hspr⟩ := memReadSeq_of_valid hv
  refine ⟨_, ?_, pixel_overlay_iff_spriteCovers hn hlen hspr⟩
  rw [exec, execDrw, hread, orRaise_ok, State.displayUpdate_collided]

theorem takesFault_drw_of_not_valid (hv : ¬ ValidAccess s s.i.toNat n) : TakesFault (.drw x y n) s .outOfRange s.i := by
  rw [TakesFault, exec, execDrw, memReadSeq_of_not_valid hv, orRaise_error]
  rfl

/-- Settles O50: row 23 of the map; a pixel is inverted where the overlay has one, and `VF` is the reply. -/
theorem drawTogglesTheSpritePixels : Obligations.DrawTogglesTheSpritePixels := by
  refine ⟨decodesTo_row 22 rfl, fun x y n s hn => ⟨fun hv => ?_, takesFault_drw_of_not_valid⟩⟩
  obtain ⟨ov, hexec, hcovers⟩ := exec_drw_of_valid x y hn hv
  refine ⟨_, hexec, fun col row hc => ?_, fun col row hc => ?_, fun hoff => ?_, fun hoff => ?_, fun r hr => ?_, rfl,
    fun _ => rfl⟩
  · rw [State.setFlag_fb, State.displayUpdate_fb, pixel_composited, (hcovers col row).2 hc, Bool.xor_true]
  · have hclear : pixel ov col row = false := Bool.eq_false_of_not_eq_true (hc ∘ (hcovers col row).1)
    rw [State.setFlag_fb, State.displayUpdate_fb, pixel_composited, hclear, Bool.xor_false]
  · rw [State.getV_setFlag, if_pos rfl, (collides_iff_pixel_turnedOff s.fb ov).2 hoff]
    rfl
  · rw [State.getV_setFlag, if_pos rfl,
      Bool.eq_false_of_not_eq_true (hoff ∘ (collides_iff_pixel_turnedOff s.fb ov).1)]
    rfl
  · rw [State.getV_setFlag, if_neg hr]
    rfl

/-- What a sprite covers depends on its coordinates, on `I` and on memory alone. -/
theorem spriteCovers_congr {t : State} (hx : t.getV x = s.getV x) (hy : t.getV y = s.getV y) (hi : t.i = s.i)
    (hmem : SameMemory s t) (col : Fin 64) (row : Fin 32) :
    SpriteCovers t x y n col row ↔ SpriteCovers s x y n col row := by
  simp only [SpriteCovers, hx, hy, hi, hmem _]

end

/-- Settles O51, from the effect of a draw: both draws cover the same pixels, so the second inverts back what the first
inverted, and turns off those the first turned on. -/
theorem drawingTwiceRestoresTheDisplay : Obligations.DrawingTwiceRestoresTheDisplay := by
  intro x y n s hn hv
  obtain ⟨-, hdraw⟩ := drawTogglesTheSpritePixels
  obtain ⟨t, hexec, hin, hout, -, -, hreg, hframe, hmem⟩ := (hdraw x y n s hn).1 hv
  refine ⟨t, hexec, hreg x, hreg y, fun hx hy => ?_⟩
  have hi : t.i = s.i := by rw [hframe]
  have hcfg : t.cfg = s.cfg := by rw [hframe]
  have hvt : ValidAccess t t.i.toNat n := by
    simpa only [ValidAccess, hi, hcfg] using hv
  have hcovers := spriteCovers_congr (n := n) hx hy hi hmem
  obtain ⟨u, hexec', hin', hout', hset, hclear, -⟩ := (hdraw x y n t hn).1 hvt
  simp only [hcovers] at hin' hout'
  have hfb : u.fb = s.fb := pixel_ext fun col row => by
    by_cases hc : SpriteCovers s x y n col row
    · rw [hin' col row hc, hin col row hc, Bool.not_not]
    · rw [hout' col row hc, hout col row hc]
  refine ⟨u, hexec', hfb, fun hflag => ?_, fun ⟨col, row, hc, hs⟩ => hset ⟨col, row, ?_, ?_⟩⟩
  · obtain ⟨col, row, ht, hu⟩ : ∃ col row, pixel t.fb col row = true ∧ pixel u.fb col row = false := by
      by_contra hnone
      exact absurd (hflag.symm.trans (hclear hnone)) (by decide)
    rw [hfb] at hu
    refine ⟨col, row, ?_, hu⟩
    by_contra hc
    rw [hout col row hc, hu] at ht
    cases ht
  · rw [hin col row hc, hs, Bool.not_false]
  · rw [hfb, hs]

/-! ### The key skips (R165, R166) -/

theorem skipIf_pc_toNat (s : State) (c : Bool) :
    (s.skipIf c).pc.toNat = if c then (s.pc.toNat + 2) % 65536 else s.pc.toNat := by
  rw [← pcPlusTwo_toNat, ← apply_ite BitVec.toNat]
  rfl

section
variable {i : Instr} {x : RegIdx} {c : Bool}
  (hexec : exec i s = s.orRaise (if isNibble (s.getV x) then .ok (s.skipIf c)
    else .error ⟨.invalidKey, zext16 (s.getV x)⟩))
include hexec

/-- What the two skips share when the operand names a key. -/
theorem skips_of_key (hkey : (s.getV x).toNat ≤ 0xF) :
    ∃ t, exec i s = .next t ∧ t = { s with pc := t.pc } ∧ SameMemory s t ∧
      t.pc.toNat = if c then (s.pc.toNat + 2) % 65536 else s.pc.toNat := by
  rw [hexec, if_pos ((isNibble_iff _).2 hkey), orRaise_ok]
  exact ⟨_, rfl, rfl, fun _ => rfl, skipIf_pc_toNat s c⟩

theorem takesFault_of_not_key (hkey : 0xF < (s.getV x).toNat) :
    TakesFault i s .invalidKey (BitVec.ofNat 16 (s.getV x).toNat) := by
  rw [TakesFault, hexec, if_neg (hkey.not_ge ∘ (isNibble_iff _).1), orRaise_error, zext16_eq]
  rfl

end

/-- Settles O52: rows 24 and 25 of the map; one skips on the key's bit, the other on its negation. -/
theorem keySkipsReadTheKeyState : Obligations.KeySkipsReadTheKeyState := by
  refine ⟨decodesTo_row 23 rfl, decodesTo_row 24 rfl, fun x s => ?_⟩
  have hskp : exec (.skp x) s = s.orRaise (if isNibble (s.getV x) then .ok (s.skipIf (s.keyPressed (s.getV x)))
      else .error ⟨.invalidKey, zext16 (s.getV x)⟩) := rfl
  have hsknp : exec (.sknp x) s = s.orRaise (if isNibble (s.getV x) then .ok (s.skipIf (!s.keyPressed (s.getV x)))
      else .error ⟨.invalidKey, zext16 (s.getV x)⟩) := rfl
  refine ⟨fun hkey => ⟨skips_of_key hskp hkey, ?_⟩,
    fun hkey => ⟨takesFault_of_not_key hskp hkey, takesFault_of_not_key hsknp hkey⟩⟩
  obtain ⟨t, hexec, hframe, hmem, hpc⟩ := skips_of_key hsknp hkey
  refine ⟨t, hexec, hframe, hmem, hpc.trans ?_⟩
  simp only [Bool.not_eq_true', ← Bool.not_eq_true, ite_not]
  rfl

/-! ### The wait for a key (R167, R195) -/

theorem env_upcoming_of_script {e : Env} {first : Inputs} {rest : List Inputs} (h : e.script = first :: rest) :
    e.upcoming = first :=
  congrArg Env.inputs (env_advance_of_script h)

/-- R195: with neither a quit nor a key event, a step of the wait is the environment's sample alone (D18). -/
theorem step_of_awaitKey_of_quiet {x : RegIdx} (hpos : 1 ≤ s.cfg.ipt) (hrun : s.run = .awaitKey x)
    (hquit : s.env.upcoming.quit = false) (hkey : s.env.upcoming.keyEvent = none) : step s = .next s.sample := by
  rw [step_of_awaitKey hpos hrun hquit]
  obtain ⟨k, hk, -⟩ | ⟨-, hsame⟩ := awaitIteration_cases s.sample x
  · cases hkey.symm.trans hk
  · rw [hsame]

/-- A run of the wait over a quiet script moves the environment's side and its latch alone. -/
theorem run_of_awaitKey_of_quiet {x : RegIdx} {script rest : List Inputs} (hpos : 1 ≤ s.cfg.ipt)
    (hrun : s.run = .awaitKey x) (hscript : s.env.script = script ++ rest)
    (hquiet : ∀ inp ∈ script, inp.quit = false ∧ inp.keyEvent = none) :
    ∃ t, Host.Core.run Sys2Proof.core script.length s = .next t ∧ t = { s with tickDue := t.tickDue, env := t.env } ∧
      t.env.script = rest ∧ (t.tickDue = true ↔ s.tickDue = true ∨ ∃ inp ∈ script, inp.tick = true) := by
  induction script generalizing s with
  | nil => exact ⟨s, rfl, rfl, hscript, by simp⟩
  | cons first script ih =>
    obtain ⟨⟨hquit, hkey⟩, hquiet⟩ := List.forall_mem_cons.1 hquiet
    have hup : s.env.upcoming = first := env_upcoming_of_script hscript
    have hstep : step s = .next s.sample := step_of_awaitKey_of_quiet hpos hrun (hup ▸ hquit) (hup ▸ hkey)
    have hscript' : s.sample.env.script = script ++ rest := congrArg Env.script (env_advance_of_script hscript)
    obtain ⟨t, hreach, hframe, hrest, htick⟩ := ih (s := s.sample) hpos hrun hscript' hquiet
    refine ⟨t, (run_succ_of_next hstep).trans hreach, hframe, hrest, htick.trans ?_⟩
    rw [State.sample_tickDue, hup, Bool.or_eq_true, or_assoc, List.exists_mem_cons_iff]

/-- Settles O53: row 27 of the map; entering the wait, then an induction over the script. -/
theorem keyWaitSuspendsTheCore : Obligations.KeyWaitSuspendsTheCore :=
  ⟨decodesTo_row 26 rfl, fun _ _ => rfl, fun _ _ _ _ => run_of_awaitKey_of_quiet⟩

end Sys2Proof.Machine
end

section
/-! The timer instructions (R180 to R182): a register receives `DT`, and one write of a byte for each timer. -/

namespace Sys2Proof.Machine

/-- Settles O54: rows 26 and 28 of the map; the value of `Fx07` is the delay timer, and `Fx15` is one write of it. -/
theorem delayTimerIsReadAndWritten : Obligations.DelayTimerIsReadAndWritten :=
  ⟨decodesTo_row 25 rfl, decodesTo_row 27 rfl, fun _ =>
    ⟨writesReg_of_exec State.dt (fun _ => rfl) fun _ => rfl, fun _ => ⟨_, rfl, State.setDt_dt _ _, rfl, fun _ => rfl⟩⟩⟩

/-- R182 and D15: a write of the sound timer turns the signal on exactly when the byte is not 0. -/
theorem setSt_audioOn_iff (s : State) (b : Byte) : (s.setSt b).audioOn = true ↔ b ≠ 0 := bne_iff_ne

/-- Settles O55: row 29 of the map; `Fx18` is one write of the sound timer, and the signal follows the byte. -/
theorem soundTimerWriteSetsAudio : Obligations.SoundTimerWriteSetsAudio :=
  ⟨decodesTo_row 28 rfl, fun x s =>
    ⟨_, rfl, State.setSt_st s (s.getV x), setSt_audioOn_iff s (s.getV x), rfl, fun _ => rfl⟩⟩

end Sys2Proof.Machine
end

section
/-! The scheduler (R190 to R195): each kind of step from its guard, and what one step that is no instruction step, or one
instruction step, can do. -/

namespace Sys2Proof.Machine

variable {s t : State}

/-! ### An instruction step -/

theorem instructionStep_of_decode {op : Word} {i : Instr} (hfetch : s.fetchWord s.pc = .ok op)
    (hdecode : decode op = .ok i) : s.instructionStep = exec i s.advancePastFetch := by
  simp only [State.instructionStep, dispatch, hfetch, hdecode]

/-- The three next states of an instruction step: the fetch faults, the word is unrecognized, or an instruction runs. -/
theorem instructionStep_next_cases (h : s.instructionStep = .next t) :
    t = s.raise (outOfRange s.pc) ∨
    (∃ op, t = s.advancePastFetch.raise ⟨.unrecognizedOpcode, op⟩) ∨
    ∃ op i, s.fetchWord s.pc = .ok op ∧ decode op = .ok i ∧ exec i s.advancePastFetch = .next t := by
  obtain ⟨-, fetchFault⟩ | ⟨hok, op, rfl, ⟨-, unrecognized⟩ | ⟨i, hdecode, -, runs⟩⟩ := instructionStep_cases s
  · exact .inl (Host.Outcome.next.inj (h.symm.trans fetchFault))
  · exact .inr (.inl ⟨_, Host.Outcome.next.inj (h.symm.trans unrecognized)⟩)
  · exact .inr (.inr ⟨_, i, fetchWord_ok s hok, hdecode, runs.symm.trans h⟩)

/-- No instruction step writes the parameters. -/
theorem instructionStep_cfg (h : s.instructionStep = .next t) : t.cfg = s.cfg := by
  obtain rfl | ⟨_, rfl⟩ | ⟨_, i, -, -, hexec⟩ := instructionStep_next_cases h
  · rfl
  · rfl
  · exact (onlyTheListedInstructionsWrite i _ t hexec).1

/-- Settles O6: the fetch is valid and its word decodes, so the instruction step is `exec` past the fetch (R194). -/
theorem stepRunsTheDecodedInstruction : Obligations.StepRunsTheDecodedInstruction := by
  intro s i hexecutes hvalid hdecode
  refine ⟨decode_wf hdecode, ?_⟩
  rw [step_of_executesNext hexecutes]
  exact instructionStep_of_decode (s := s.sample) (fetchWord_of_valid hvalid) hdecode

/-! ### The sample and the steps that run no instruction -/

/-- Settles O7: `Env.advance` takes the head of the script, and the latch is a disjunction. -/
theorem sampleLatchesTheTickBoundary : Obligations.SampleLatchesTheTickBoundary := fun _ =>
  ⟨rfl, Bool.or_eq_true_iff, rfl, fun _ _ hscript =>
    ⟨env_upcoming_of_script hscript, congrArg Env.script (env_advance_of_script hscript)⟩⟩

/-- Settles O10: the step is `State.tickStep` of the sample, which counts each timer down (`countDown_toNat`). -/
theorem tickStepCountsBothTimersDown : Obligations.TickStepCountsBothTimersDown := fun s hpos hticks =>
  ⟨s.sample.tickStep, step_of_ticksNext hpos hticks, countDown_toNat s.dt, countDown_toNat s.st, bne_iff_ne, rfl, rfl, rfl⟩

/-- Settles O11: neither run state is ended, and quit is examined first (D17). -/
theorem quitHaltsTheRun : Obligations.QuitHaltsTheRun := by
  intro s hpos hrun hquit
  have hended : s.run.ended = false := by
    obtain h | ⟨x, h⟩ := hrun <;> rw [h] <;> rfl
  exact ⟨step_of_quit hpos hended hquit, rfl⟩

/-- Settles O12, the fourth condition of R190. -/
theorem budgetHoldChangesNothing : Obligations.BudgetHoldChangesNothing := fun _ => step_of_hold

theorem keyStep_getV (s : State) (x : RegIdx) (k : Key) (r : RegIdx) :
    (s.keyStep x k).getV r = if r = x then BitVec.ofNat 8 k.val else s.getV r :=
  State.getV_setV s x r _

theorem step_of_awaitKey_of_event {x : RegIdx} {k : Key} (hpos : 1 ≤ s.cfg.ipt) (hrun : s.run = .awaitKey x)
    (hquit : s.env.upcoming.quit = false) (hkey : s.env.upcoming.keyEvent = some k) :
    step s = .next (s.sample.keyStep x k) := by
  rw [step_of_awaitKey hpos hrun hquit]
  obtain ⟨k', hk', hdeliver⟩ | ⟨hnone, -⟩ := awaitIteration_cases s.sample x
  · obtain rfl := Option.some.inj (hk'.symm.trans hkey)
    rw [hdeliver]
  · cases hnone.symm.trans hkey

/-- Settles O13: with an event the wait ends by `State.keyStep`; without one the step is the sample alone. -/
theorem keyStepDeliversTheKey : Obligations.KeyStepDeliversTheKey := by
  refine fun s x hpos hrun hquit => ⟨fun k hkey => ?_, step_of_awaitKey_of_quiet hpos hrun hquit⟩
  refine ⟨_, step_of_awaitKey_of_event hpos hrun hquit hkey, ?_, fun r hr => ?_, rfl⟩
  · rw [keyStep_getV, if_pos rfl, BitVec.toNat_ofNat]
    omega
  · rw [keyStep_getV, if_neg hr]
    rfl

/-- Settles O58, by the five other cases of a step (R190): each writes only what the scheduler owns, and a register only
where a key event ends the wait. -/
theorem onlyInstructionStepsMoveTheProgram : Obligations.OnlyInstructionStepsMoveTheProgram := by
  intro s t hstep hnot
  obtain ⟨-, ⟨-, rfl⟩ | ⟨-, -, rfl⟩ | ⟨x, hrun, hquit, rfl⟩ | ⟨-, rfl⟩ | ⟨-, -, -, -, rfl⟩ | ⟨hexecutes, -⟩⟩ :=
    step_next_cases hstep
  · simp
  · simp
  · obtain ⟨k, hkey, deliver⟩ | ⟨-, hold⟩ := awaitIteration_cases s.sample x
    · rw [deliver]
      exact ⟨rfl, rfl, rfl, rfl, rfl, rfl, rfl, rfl, rfl, fun _ => ⟨x, k, hrun, hkey, hquit⟩⟩
    · rw [hold]
      simp
  · simp
  · simp
  · cases hexecutes.symm.trans hnot

/-- No step writes the parameters (log entry 1). -/
theorem step_cfg (h : step s = .next t) : t.cfg = s.cfg := by
  cases hexecutes : s.executesNext with
  | true => exact instructionStep_cfg (s := s.sample) ((step_of_executesNext hexecutes).symm.trans h)
  | false =>
    obtain ⟨-, -, -, -, -, -, -, -, hcfg, -⟩ := onlyInstructionStepsMoveTheProgram s t h hexecutes
    exact hcfg

theorem eq_tickStep_of_ticksNext (h : step s = .next t) (hticks : s.ticksNext = true) : t = s.sample.tickStep := by
  obtain ⟨hbudget, -⟩ := step_next_cases h
  exact Host.Outcome.next.inj (h.symm.trans (step_of_ticksNext (Nat.pos_of_ne_zero hbudget) hticks))

/-- A step that neither ticks nor runs an instruction leaves the timers and the budget. -/
theorem step_frame_of_idle (h : step s = .next t) (hticks : s.ticksNext = false) (hexecutes : s.executesNext = false) :
    t = { s with v := t.v, run := t.run, tickDue := t.tickDue, env := t.env } := by
  obtain ⟨-, ⟨-, rfl⟩ | ⟨-, -, rfl⟩ | ⟨x, -, -, rfl⟩ | ⟨ht, -⟩ | ⟨-, -, -, -, rfl⟩ | ⟨hx, -⟩⟩ := step_next_cases h
  · rfl
  · rfl
  · obtain ⟨k, -, deliver⟩ | ⟨-, hold⟩ := awaitIteration_cases s.sample x
    · rw [deliver]
      rfl
    · rw [hold]
      rfl
  · cases ht.symm.trans hticks
  · rfl
  · cases hx.symm.trans hexecutes

/-- A run along which a property never held at the start of a step: it did not hold at the first, nor later. -/
theorem tally_succ_eq_zero_iff {p : State → Bool} {n : Nat} (h : step s = .next t) :
    tally p (n + 1) s = 0 ↔ p s = false ∧ tally p n t = 0 := by
  rw [tally_succ_of_next p h, Nat.add_eq_zero_iff]
  simp

end Sys2Proof.Machine
end

section
/-! The timers along a run (R197 (c), (d)): a tick step counts both down, and every other step leaves a timer that its
instruction does not write. -/

namespace Sys2Proof.Machine

variable {s t : State}

theorem nextInstr_of_decode {op : Word} {i : Instr} (hexecutes : s.executesNext = true)
    (hfetch : s.sample.fetchWord s.sample.pc = .ok op) (hdecode : decode op = .ok i) : s.nextInstr = some i := by
  simp only [State.nextInstr, hexecutes, hfetch, hdecode, if_true]

/-- An instruction step writes a timer only by the timer's own instruction. -/
theorem timers_of_executesNext (h : step s = .next t) (hexecutes : s.executesNext = true) :
    (s.writesDtNext = false → t.dt = s.dt) ∧ (s.writesStNext = false → t.st = s.st) := by
  rw [step_of_executesNext hexecutes] at h
  obtain rfl | ⟨op, rfl⟩ | ⟨op, i, hfetch, hdecode, hexec⟩ := instructionStep_next_cases h
  · exact ⟨fun _ => rfl, fun _ => rfl⟩
  · exact ⟨fun _ => rfl, fun _ => rfl⟩
  · have hnext := nextInstr_of_decode hexecutes hfetch hdecode
    obtain ⟨-, -, -, -, -, -, hdt, hst, -⟩ := onlyTheListedInstructionsWrite i _ t hexec
    constructor <;> intro hwrites <;> by_contra hchanged
    · obtain ⟨x, rfl⟩ := hdt hchanged
      simp [State.writesDtNext, hnext] at hwrites
    · obtain ⟨x, rfl⟩ := hst (.inl hchanged)
      simp [State.writesStNext, hnext] at hwrites

/-- A step lowers a timer that it does not write by 1 if it is a tick step, else not at all. -/
theorem timers_of_step (h : step s = .next t) :
    (s.writesDtNext = false → t.dt.toNat = s.dt.toNat - if s.ticksNext then 1 else 0) ∧
    (s.writesStNext = false → t.st.toNat = s.st.toNat - if s.ticksNext then 1 else 0) := by
  cases hticks : s.ticksNext with
  | true =>
    obtain rfl := eq_tickStep_of_ticksNext h hticks
    exact ⟨fun _ => countDown_toNat s.dt, fun _ => countDown_toNat s.st⟩
  | false =>
    cases hexecutes : s.executesNext with
    | true =>
      obtain ⟨hdt, hst⟩ := timers_of_executesNext h hexecutes
      exact ⟨fun hw => congrArg BitVec.toNat (hdt hw), fun hw => congrArg BitVec.toNat (hst hw)⟩
    | false =>
      have hframe := step_frame_of_idle h hticks hexecutes
      exact ⟨fun _ => congrArg (·.dt.toNat) hframe, fun _ => congrArg (·.st.toNat) hframe⟩

/-- What holds of a timer at each step that does not write it holds along a run without such a write. -/
theorem timer_of_run {timer : State → Byte} {writes : State → Bool}
    (hstep : ∀ {s t}, step s = .next t → writes s = false →
      (timer t).toNat = (timer s).toNat - if s.ticksNext then 1 else 0)
    {n : Nat} (hrun : Host.Core.run Sys2Proof.core n s = .next t) (hwrites : tally writes n s = 0) :
    (timer t).toNat = (timer s).toNat - tally State.ticksNext n s := by
  induction n generalizing s with
  | zero => rw [run_zero_next hrun, tally, Nat.sub_zero]
  | succ n ih =>
    obtain ⟨u, hfirst, hrest⟩ := run_succ_next hrun
    obtain ⟨hnow, hlater⟩ := (tally_succ_eq_zero_iff hfirst).1 hwrites
    rw [ih hrest hlater, hstep hfirst hnow, tally_succ_of_next _ hfirst, Nat.sub_sub]

/-- Settles O56, by induction over the run for each timer (`timer_of_run`). -/
theorem timersFallByTheTickSteps : Obligations.TimersFallByTheTickSteps := fun _ _ _ hrun =>
  ⟨timer_of_run (timer := State.dt) (fun h => (timers_of_step h).1) hrun,
    timer_of_run (timer := State.st) (fun h => (timers_of_step h).2) hrun⟩

end Sys2Proof.Machine
end

section
/-! The budget between ticks (R197 (a)): what is left of it bounds the instruction steps to come. -/

namespace Sys2Proof.Machine

variable {s t : State}

/-- How many instruction steps can still run before a tick: none after the end of a run, which a faulting fetch brings
without charging the budget (R194, D25), else what `icount` leaves of `IPT`. -/
def State.budgetLeft (s : State) : Nat := if s.run.ended then 0 else s.cfg.ipt - s.icount

theorem budgetLeft_of_ended (h : s.run.ended = true) : s.budgetLeft = 0 := if_pos h

theorem budgetLeft_of_not_ended (h : s.run.ended = false) : s.budgetLeft = s.cfg.ipt - s.icount := by
  rw [State.budgetLeft, h]
  rfl

theorem budgetLeft_le (s : State) : s.budgetLeft ≤ s.cfg.ipt - s.icount := by
  unfold State.budgetLeft
  split
  · exact Nat.zero_le _
  · exact le_rfl

/-- An instruction step spends one unit of the budget, or ends the run. -/
theorem budgetLeft_of_instructionStep (h : s.instructionStep = .next t) :
    t.budgetLeft ≤ s.cfg.ipt - (s.icount + 1) := by
  obtain rfl | ⟨_, rfl⟩ | ⟨_, i, -, -, hexec⟩ := instructionStep_next_cases h
  · exact (budgetLeft_of_ended rfl).trans_le (Nat.zero_le _)
  · exact (budgetLeft_of_ended rfl).trans_le (Nat.zero_le _)
  · obtain ⟨hcfg, hicount, -⟩ := onlyTheListedInstructionsWrite i _ t hexec
    have hle := budgetLeft_le t
    rwa [hcfg, hicount] at hle

/-- A step that neither ticks nor runs an instruction gives no budget back. -/
theorem budgetLeft_of_idle (h : step s = .next t) (hticks : s.ticksNext = false) (hexecutes : s.executesNext = false) :
    t.budgetLeft ≤ s.budgetLeft := by
  cases hended : s.run.ended with
  | true =>
    obtain ⟨hbudget, -⟩ := step_next_cases h
    obtain rfl := Host.Outcome.next.inj (h.symm.trans (step_of_ended (Nat.pos_of_ne_zero hbudget) hended))
    exact le_rfl
  | false =>
    have hle := budgetLeft_le t
    rw [step_frame_of_idle h hticks hexecutes] at hle ⊢
    exact hle.trans_eq (budgetLeft_of_not_ended hended).symm

/-- A step that is no tick step pays for the instruction it runs. -/
theorem budgetLeft_of_step (h : step s = .next t) (hticks : s.ticksNext = false) :
    (if s.executesNext then 1 else 0) + t.budgetLeft ≤ s.budgetLeft := by
  cases hexecutes : s.executesNext with
  | true =>
    obtain ⟨hrun, -, -, hleft⟩ := executesNext_iff.1 hexecutes
    have hspent : t.budgetLeft ≤ s.cfg.ipt - (s.icount + 1) :=
      budgetLeft_of_instructionStep (s := s.sample) ((step_of_executesNext hexecutes).symm.trans h)
    have hwhole : s.budgetLeft = s.cfg.ipt - s.icount := budgetLeft_of_not_ended (by rw [hrun]; rfl)
    rw [if_pos rfl]
    omega
  | false => simpa using budgetLeft_of_idle h hticks hexecutes

theorem tally_executesNext_le_budgetLeft {n : Nat} (hpos : 1 ≤ s.cfg.ipt) (hticks : tally State.ticksNext n s = 0) :
    tally State.executesNext n s ≤ s.budgetLeft := by
  induction n generalizing s with
  | zero => exact Nat.zero_le _
  | succ n ih =>
    obtain ⟨t, hstep⟩ := step_next_of_budget_pos hpos
    obtain ⟨hnow, hlater⟩ := (tally_succ_eq_zero_iff hstep).1 hticks
    calc tally State.executesNext (n + 1) s
        = (if s.executesNext then 1 else 0) + tally State.executesNext n t := tally_succ_of_next _ hstep
      _ ≤ (if s.executesNext then 1 else 0) + t.budgetLeft :=
        Nat.add_le_add_left (ih (step_cfg hstep ▸ hpos) hlater) _
      _ ≤ s.budgetLeft := budgetLeft_of_step hstep hnow

/-- Settles O57: a tick step leaves the whole budget, and what is left bounds the instruction steps until the next. -/
theorem budgetBoundsInstructionsBetweenTicks : Obligations.BudgetBoundsInstructionsBetweenTicks := by
  intro n s t hticks hstep hnone
  obtain ⟨hbudget, -⟩ := step_next_cases hstep
  obtain rfl := eq_tickStep_of_ticksNext hstep hticks
  exact (tally_executesNext_le_budgetLeft (s := s.sample.tickStep) (Nat.pos_of_ne_zero hbudget) hnone).trans
    (budgetLeft_le s.sample.tickStep)

end Sys2Proof.Machine
end

section
/-! Faults (R220 to R232): what the fetch, the dispatch and an instruction record, and that each changes nothing else. -/

namespace Sys2Proof.Machine

variable {s : State}

/-! ### Faults of an instruction (R229) -/

theorem loadRegs_run (s : State) (j : Nat) (bs : List Byte) : (s.loadRegs j bs).run = s.run := by
  rw [loadRegs_eq]

/-- Settles O16, by what an instruction can answer (`exec_cases`): an update that completes leaves `run` at a value other
than `Faulted`, and a fault is `State.raise` under its one guard. -/
theorem instructionFaultsArePrecise : Obligations.InstructionFaultsArePrecise := by
  intro i s t h hrun hfault
  have hc := exec_cases h
  cases i with
  | cls | jp _ | jpV0 _ | ldI _ | addI _ | ldDtVx _ | ldStVx _ =>
    obtain rfl : t = _ := hc
    exact absurd hfault hrun
  | ldVxK _ =>
    obtain rfl : t = _ := hc
    exact absurd hfault nofun
  | seImm _ _ | sneImm _ _ | seReg _ _ | sneReg _ _
  | ldImm _ _ | addImm _ _ | ldReg _ _ | orReg _ _ | andReg _ _ | xorReg _ _ | rnd _ _ | ldVxDt _ =>
    obtain ⟨_, rfl⟩ := hc
    exact absurd hfault hrun
  | addReg _ _ | sub _ _ | subn _ _ | shr _ _ | shl _ _ =>
    obtain ⟨_, _, rfl⟩ := hc
    exact absurd hfault hrun
  | ret | call _ =>
    obtain ⟨_, rfl⟩ | ⟨hsp, rfl⟩ := hc
    · exact absurd hfault hrun
    · exact ⟨_, _, rfl, rfl, rfl, hsp⟩
  | skp _ | sknp _ =>
    obtain ⟨-, _, rfl⟩ | ⟨hkey, rfl⟩ := hc
    · exact absurd hfault hrun
    · exact ⟨_, _, rfl, rfl, zext16_toNat _, hkey⟩
  | ldF _ =>
    obtain ⟨-, rfl⟩ | ⟨hdigit, rfl⟩ := hc
    · exact absurd hfault hrun
    · exact ⟨_, _, rfl, rfl, zext16_toNat _, hdigit⟩
  | drw _ _ _ =>
    obtain ⟨-, _, _, rfl⟩ | ⟨hvalid, rfl⟩ := hc
    · exact absurd hfault hrun
    · exact ⟨_, _, rfl, rfl, rfl, hvalid⟩
  | ldB _ | ldMemVx _ =>
    obtain ⟨-, rfl⟩ | ⟨hvalid, rfl⟩ := hc
    · exact absurd hfault hrun
    · exact ⟨_, _, rfl, rfl, rfl, hvalid⟩
  | ldVxMem _ =>
    obtain ⟨-, bs, -, rfl⟩ | ⟨hvalid, rfl⟩ := hc
    · exact absurd ((loadRegs_run s 0 bs).symm.trans hfault) hrun
    · exact ⟨_, _, rfl, rfl, rfl, hvalid⟩

/-! ### Faults of the fetch and of the dispatch (R221, R224) -/

theorem instructionStep_of_fetchFault {f : FaultRecord} (hfetch : s.fetchWord s.pc = .error f) :
    s.instructionStep = .next (s.raise f) := by
  simp only [State.instructionStep, hfetch]

theorem instructionStep_of_reject {op : Word} {r : Reject} (hfetch : s.fetchWord s.pc = .ok op)
    (hdecode : decode op = .error r) : s.instructionStep = .next (s.advancePastFetch.raise ⟨.unrecognizedOpcode, op⟩) := by
  simp only [State.instructionStep, dispatch, hfetch, hdecode]

/-- R84, R86: the lookup of a word fails when no row of the map matches it. -/
theorem decode_error_of_no_row {op : Word} (hrows : ∀ row ∈ opcodeMap, op &&& row.mask ≠ row.pattern) :
    decode op = .error (.unrecognizedOpcode op) := by
  cases hdecode : decode op with
  | ok i =>
    obtain ⟨row, hrow, hmatch, -⟩ := decode_inv hdecode
    exact absurd hmatch (hrows row hrow)
  | error r => rw [decode_error hdecode]

/-- Settles O8: the fetch fails before `PC` and `icount` move (D25). -/
theorem fetchFaultKeepsPcAndBudget : Obligations.FetchFaultKeepsPcAndBudget := by
  intro s hexecutes hinvalid
  rw [step_of_executesNext hexecutes]
  exact instructionStep_of_fetchFault (s := s.sample) (fetchWord_of_not_valid hinvalid)

/-- Settles O9: the fetch is valid, so `PC` and `icount` have moved when the lookup fails (R194). -/
theorem unrecognizedOpcodeIsAFault : Obligations.UnrecognizedOpcodeIsAFault := by
  rintro s op hexecutes hvalid rfl hrows
  rw [step_of_executesNext hexecutes]
  exact instructionStep_of_reject (s := s.sample) (fetchWord_of_valid hvalid) (decode_error_of_no_row hrows)

end Sys2Proof.Machine
end

section
/-! Hazards (R268): the font table lies below `LOW`, so with `ACC_LOW = LOW` no access through a font address is valid. -/

namespace Sys2Proof.Machine

variable {s : State}

theorem not_validAccess_of_lt_low (hbound : s.cfg.accBound = .low) {a : Nat} (h : a < s.cfg.low.addr) (len : Nat) :
    ¬ ValidAccess s a len := fun hv => h.not_ge ((validAccess_iff_of_bound_low hbound a len).1 hv).1

/-- R51, R142: the last sprite of the font table starts at `0x9B`, below both legal low bounds. -/
theorem fontAddress_lt_low {d : Byte} (h : d.toNat ≤ 0xF) (l : LowBound) : (fontAddress d).toNat < l.addr := by
  rw [fontAddress_toNat h]
  have := low_addr_cases l
  omega

/-- Settles O47: an `Fx29` that completes puts a font address in `I`, below the bound of every access. -/
theorem fontIsOutOfReach : Obligations.FontIsOutOfReach := by
  intro x s t hbound hexec hrun
  obtain ⟨hdigit, rfl⟩ | ⟨-, rfl⟩ := exec_cases hexec
  · have hinvalid (len : Nat) : ¬ ValidAccess (s.setI (fontAddress (s.getV x))) (fontAddress (s.getV x)).toNat len :=
      not_validAccess_of_lt_low hbound (fontAddress_lt_low hdigit _) len
    exact ⟨fun _ _ n => takesFault_drw_of_not_valid (hinvalid n),
      fun y => takesFault_ldVxMem_of_not_valid (hinvalid (y.val + 1))⟩
  · exact absurd rfl hrun

end Sys2Proof.Machine
end
